-- ==== Sys2Proof/Word.lean ====
section
/-! DEFINITION. The two word types of the block: a byte and a 16-bit halfword (`00_scope.md` R5, R6).
All quantities are unsigned. -/

namespace Sys2Proof

/-- A byte is 8 bits (R6). -/
abbrev Byte := BitVec 8

/-- The 16-bit values of `A`, `R`, total-length, identification, checksum and the flags and
fragment-offset halfword (R7, R21, R27). -/
abbrev Half := BitVec 16

end Sys2Proof
end

