-- ==== Sys2Proof/Config.lean ====
section
/-! DEFINITION. The fixed numbers of the block (`00_scope.md` R4). None is a run-time parameter. -/

namespace Sys2Proof.Config

/-- `BASE_HDR`: the fixed header, in bytes. -/
abbrev baseHdr : Nat := 20
/-- `MAX_OPTREGION`: the longest padded options region, in bytes. -/
abbrev maxOptRegion : Nat := 40
/-- `MAX_TOTAL`: the largest total length, in bytes. -/
abbrev maxTotal : Nat := 65535
/-- `IHL_DEFAULT`: the least header length, in 4-byte words. -/
abbrev ihlDefault : Nat := 5
/-- `VERSION_DEFAULT`. -/
abbrev versionDefault : BitVec 4 := 4
/-- `TTL_DEFAULT`. -/
abbrev ttlDefault : Byte := 64
/-- `PROTO_DEFAULT`. -/
abbrev protoDefault : Byte := 6
/-- `NOP_BYTE`: the padding no-operation option. -/
abbrev nopByte : Byte := 0x01
/-- `EOL_BYTE`: the padding end-of-list option. -/
abbrev eolByte : Byte := 0x00
/-- `WIRE_CAP`: capacity of the wire buffer, addresses 0 to 65534 (R26). -/
abbrev wireCap : Nat := 65535
/-- `PAY_CAP`: capacity of the payload buffer, addresses 0 to 65514 (R25). -/
abbrev payCap : Nat := 65515
/-- `OPT_MAX`: entries of the option list (R24). -/
abbrev optMax : Nat := 40
/-- `VAL_CAP`: capacity of an option's value buffer (R23). -/
abbrev valCap : Nat := 255

/-- What a buffer byte reads as when nothing has written it.
The spec says such a byte holds no value (R25, R26, R32): DESIGN CHOICE, unsafe, log 2. -/
abbrev unwrittenByte : Byte := 0x00

end Sys2Proof.Config
end

