-- ==== Sys2Proof/Syntax.lean ====
section
/-! DEFINITION. The instructions (every row of `spec/opcode_table.json`), the places the host can name,
and the host's events (`30_encoding.md` R67 to R70, R75, R80; `10_state.md` R21 to R28, R31). -/

namespace Sys2Proof

/-- The two one-byte formats of the table: `OP8`, the byte written to `OP` (R75), and `OPTTYPE`, the
type byte of an option in the wire buffer (R67, R70). -/
inductive Format where
  | op8
  | optType
deriving DecidableEq, Repr

/-- One constructor per row of `spec/opcode_table.json`.
The 14 rows of format `OP8` have no fields (R75).
The 6 rows of format `OPTTYPE` carry the type byte's copied flag, class and the free bits of its
number; the four `OPT_TLV` rows are told apart by the leading set bit of `t[4:1]` (R70). -/
inductive Instr where
  | ver
  | ihl
  | flg
  | foff
  | ocpy
  | ocls
  | onum
  | optenc
  | optdec
  | pktnew
  | withopt
  | hdrenc
  | hdrdec
  | cksum
  /-- `OPT_EOL`, `pcc00000`. -/
  | optEol (copied : BitVec 1) (cls : BitVec 2)
  /-- `OPT_NOP`, `pcc00001`. -/
  | optNop (copied : BitVec 1) (cls : BitVec 2)
  /-- `OPT_TLV`, `pcc1nnnn`: numbers 16 to 31. -/
  | optTlv16 (copied : BitVec 1) (cls : BitVec 2) (low : BitVec 4)
  /-- `OPT_TLV`, `pcc01nnn`: numbers 8 to 15. -/
  | optTlv8 (copied : BitVec 1) (cls : BitVec 2) (low : BitVec 3)
  /-- `OPT_TLV`, `pcc001nn`: numbers 4 to 7. -/
  | optTlv4 (copied : BitVec 1) (cls : BitVec 2) (low : BitVec 2)
  /-- `OPT_TLV`, `pcc0001n`: numbers 2 and 3. -/
  | optTlv2 (copied : BitVec 1) (cls : BitVec 2) (low : BitVec 1)
deriving DecidableEq, Repr

/-- The format of an instruction's row. -/
def Instr.format : Instr → Format
  | .ver | .ihl | .flg | .foff | .ocpy | .ocls | .onum | .optenc | .optdec | .pktnew | .withopt
  | .hdrenc | .hdrdec | .cksum => .op8
  | .optEol _ _ | .optNop _ _ | .optTlv16 _ _ _ | .optTlv8 _ _ _ | .optTlv4 _ _ _
  | .optTlv2 _ _ _ => .optType

/-- Why the decoder gives no instruction. -/
inductive DecodeError where
  /-- There is no byte to decode. -/
  | noByte
  /-- The byte is none of the 14 operation codes (R76). -/
  | illegalOp (code : Byte)
deriving DecidableEq, Repr

/-- A place the host can name: a register of `PKT`, `O`, `OPTS[k]` or a scalar, or one byte of an
address register or of a buffer (`10_state.md` R21 to R28). -/
inductive Loc where
  | op
  | status
  | a
  | r
  | ver
  | ihl
  | tos
  | tlen
  | id
  | flags
  | foff
  | ttl
  | proto
  | cksum
  | src (i : Nat)
  | dst (i : Nat)
  | oTyp
  | oLen
  | oVlen
  | oVal (i : Nat)
  | nopt
  | optTyp (k : Nat)
  | optLen (k : Nat)
  | optVlen (k : Nat)
  | optVal (k i : Nat)
  | plen
  | pay (i : Nat)
  | wlen
  | wire (i : Nat)
deriving DecidableEq, Repr

/-- One action of the host on the block (R31, R80, R190). -/
inductive HostEvent where
  /-- `loc <- v`; a write to `OP` starts the operation with that code (R28). -/
  | write (loc : Loc) (v : Nat)
  /-- A read of `loc`. -/
  | read (loc : Loc)
  /-- Reset, which comes from outside the block (R190). -/
  | reset
deriving DecidableEq, Repr

end Sys2Proof
end

