-- ==== Sys2Proof/Machine/Locations.lean ====
section
/-! DEFINITION. Which places exist and the largest value each holds: the widths of `10_state.md`
R21, R23, R24, R27, R28 and the capacities of R25, R26. -/

namespace Sys2Proof

/-- Whether the place exists in the block: every register does; a byte or an entry does when its index
lies inside the capacity (R21, R23 to R26, R40). -/
def Loc.present : Loc → Bool
  | .src i | .dst i => i < 4
  | .oVal i => i < Config.valCap
  | .optTyp k | .optLen k | .optVlen k => k < Config.optMax
  | .optVal k i => k < Config.optMax && i < Config.valCap
  | .pay i => i < Config.payCap
  | .wire i => i < Config.wireCap
  | .op | .status | .a | .r | .ver | .ihl | .tos | .tlen | .id | .flags | .foff | .ttl | .proto
  | .cksum | .oTyp | .oLen | .oVlen | .nopt | .plen | .wlen => true

/-- The largest value a place holds: all ones of its width, or the stated maximum of a length register
(R21, R23 to R28). -/
def Loc.limit : Loc → Nat
  | .op | .status | .tos | .ttl | .proto | .src _ | .dst _ | .oTyp | .oLen | .oVal _ | .optTyp _
  | .optLen _ | .optVal _ _ | .pay _ | .wire _ => 255
  | .a | .r | .tlen | .id | .cksum => 65535
  | .ver | .ihl => 15
  | .flags => 7
  | .foff => 8191
  | .oVlen | .optVlen _ => Config.valCap
  | .nopt => Config.optMax
  | .plen => Config.payCap
  | .wlen => Config.wireCap

end Sys2Proof
end

