-- ==== Sys2Proof/WellFormed.lean ====
section
/-! DEFINITION. Well-formedness of the syntax.
An `Instr` needs no check: every field has exactly the bits its row of the opcode table gives it, so
every term is an encoding of the table (`30_encoding.md` R70, R75).
A host event is well formed when the place it names exists and the value it writes fits there
(`10_state.md` R31: "Writing `plen`, `wlen`, `nopt` or `O.vlen` above its maximum ... is outside the
spec"). -/

namespace Sys2Proof

/-- The two checks of a host event: the place exists, and a written value fits in it. -/
def HostEvent.wf : HostEvent → Bool
  | .write l v => l.present && decide (v ≤ l.limit)
  | .read l => l.present
  | .reset => true

end Sys2Proof
end

