-- ==== Sys2Proof/Decode.lean ====
section
/-! DEFINITION. The decoder and the encoder of both formats of `spec/opcode_table.json`
(`30_encoding.md` R67 to R70, R75, R76). -/

namespace Sys2Proof

/-- The copied flag of a type byte, `t[7]` (R67). -/
def typeCopied (t : Byte) : BitVec 1 := t.extractLsb' 7 1
/-- The class of a type byte, `t[6:5]` (R67). -/
def typeClass (t : Byte) : BitVec 2 := t.extractLsb' 5 2
/-- The number of a type byte, `t[4:0]` (R67). -/
def typeNumber (t : Byte) : BitVec 5 := t.extractLsb' 0 5

/-- The type byte put together from its fields, `copied × 128 + class × 32 + number` (R67). -/
def typeByte (copied : BitVec 1) (cls : BitVec 2) (number : BitVec 5) : Byte :=
  copied ++ cls ++ number

/-- The operation with a code written to `OP` (R75); every other code is illegal (R76). -/
def decodeOp (code : Byte) : Except DecodeError Instr :=
  if code = 0x10 then .ok .ver
  else if code = 0x11 then .ok .ihl
  else if code = 0x12 then .ok .flg
  else if code = 0x13 then .ok .foff
  else if code = 0x20 then .ok .ocpy
  else if code = 0x21 then .ok .ocls
  else if code = 0x22 then .ok .onum
  else if code = 0x28 then .ok .optenc
  else if code = 0x29 then .ok .optdec
  else if code = 0x30 then .ok .pktnew
  else if code = 0x31 then .ok .withopt
  else if code = 0x38 then .ok .hdrenc
  else if code = 0x39 then .ok .hdrdec
  else if code = 0x40 then .ok .cksum
  else .error (.illegalOp code)

/-- The row of an option type byte, by the masks and matches of R70: 0x1F/0x00, 0x1F/0x01, then
0x10/0x10, 0x18/0x08, 0x1C/0x04 and, for what is left, 0x1E/0x02. Every byte is one of them (R78). -/
def decodeOptType (t : Byte) : Instr :=
  if t &&& 0x1F = 0x00 then .optEol (typeCopied t) (typeClass t)
  else if t &&& 0x1F = 0x01 then .optNop (typeCopied t) (typeClass t)
  else if t &&& 0x10 = 0x10 then .optTlv16 (typeCopied t) (typeClass t) (t.extractLsb' 0 4)
  else if t &&& 0x18 = 0x08 then .optTlv8 (typeCopied t) (typeClass t) (t.extractLsb' 0 3)
  else if t &&& 0x1C = 0x04 then .optTlv4 (typeCopied t) (typeClass t) (t.extractLsb' 0 2)
  else .optTlv2 (typeCopied t) (typeClass t) (t.extractLsb' 0 1)

/-- The decoder: an instruction of the given format at the front of a byte sequence, and the rest.
Which format applies is not in the byte: `OP` holds an `OP8` code, and the option decoder meets an
`OPTTYPE` byte. -/
def decode : Format → List Byte → Except DecodeError (Instr × List Byte)
  | _, [] => .error .noByte
  | .op8, b :: rest =>
    match decodeOp b with
    | .ok i => .ok (i, rest)
    | .error e => .error e
  | .optType, b :: rest => .ok (decodeOptType b, rest)

/-- The one byte of an instruction's encoding: the code of R75, or the row's bit pattern filled with
its fields (R70). -/
def encodeByte : Instr → Byte
  | .ver => 0x10
  | .ihl => 0x11
  | .flg => 0x12
  | .foff => 0x13
  | .ocpy => 0x20
  | .ocls => 0x21
  | .onum => 0x22
  | .optenc => 0x28
  | .optdec => 0x29
  | .pktnew => 0x30
  | .withopt => 0x31
  | .hdrenc => 0x38
  | .hdrdec => 0x39
  | .cksum => 0x40
  | .optEol c k => typeByte c k 0#5
  | .optNop c k => typeByte c k 1#5
  | .optTlv16 c k n => typeByte c k (1#1 ++ n)
  | .optTlv8 c k n => typeByte c k (1#2 ++ n)
  | .optTlv4 c k n => typeByte c k (1#3 ++ n)
  | .optTlv2 c k n => typeByte c k (1#4 ++ n)

/-- The bytes of an instruction. -/
def encode (i : Instr) : List Byte := [encodeByte i]

/-- The instruction the decoder reads from a table word. A word of the table does not say its format,
and some bytes are a code of `OP8` and a type byte at once (0x10 is `VER` and a row of `OPT_TLV`): a
byte that is an operation code is read as that operation, any other byte as an option type byte.
Only this function chooses so; the machine always knows which format it reads. Log 4. -/
def decodeTableWord (nbits w : Nat) : Option Instr :=
  if nbits = 8 then
    match decode .op8 [BitVec.ofNat 8 w] with
    | .ok (i, _) => some i
    | .error _ =>
      match decode .optType [BitVec.ofNat 8 w] with
      | .ok (i, _) => some i
      | .error _ => none
  else none

end Sys2Proof
end

