-- ==== Sys2Proof/Machine/State.lean ====
section
/-! DEFINITION. The state of the block (`10_state.md`), its reset values (R32), and the reasons a step
can stop. Plain data throughout. -/

namespace Sys2Proof.Machine

/-- A byte memory: the bytes written so far, by address, in one canonical form (`Memory.wf`).
An address that is not listed reads as `Config.unwrittenByte`. -/
abbrev Memory := List Host.Cell

/-- The canonical form: addresses strictly rising, and no entry equal to what an unlisted address
reads as. -/
abbrev Memory.wf (m : Memory) : Prop :=
  m.Pairwise (fun x y => x.1 < y.1) ∧ ∀ c ∈ m, c.2 ≠ Config.unwrittenByte

/-- Every listed address lies below the capacity. -/
abbrev Memory.within (cap : Nat) (m : Memory) : Prop := ∀ c ∈ m, c.1 < cap

/-- An Option as a value: type byte, declared length byte, value bytes (`41_option_codec.md`). -/
structure OptVal where
  typ : Byte
  len : Byte
  val : List Byte
deriving DecidableEq, Repr

/-- An Option as registers, `O` or an entry of `OPTS` (R23, R24): type byte, declared length byte,
count of stored value bytes, value buffer. -/
structure OptReg where
  typ : Byte
  len : Byte
  vlen : Nat
  val : Memory
deriving DecidableEq, Repr

/-- The value of `O` at reset (R32), and the model's choice for a list entry nothing has written
(DESIGN CHOICE, unsafe, log 3). -/
def OptReg.empty : OptReg := { typ := 0, len := 0, vlen := 0, val := [] }

/-- The packet descriptor `PKT`, 12 registers in the source's order (R21). -/
structure Pkt where
  ver : BitVec 4
  ihl : BitVec 4
  tos : Byte
  tlen : Half
  id : Half
  flags : BitVec 3
  foff : BitVec 13
  ttl : Byte
  proto : Byte
  cksum : Half
  src : Vector Byte 4
  dst : Vector Byte 4
deriving DecidableEq, Repr

/-- The completion kinds of `STATUS` (`60_exceptions.md` R170). -/
inductive Completion where
  | ok
  | tooShort
  | truncatedOption
  | malformedOptionsRegion
  | badOperand
  | illegalOp
deriving DecidableEq, Repr

/-- Every piece of state the spec gives the block (R20 to R28), and the host's pending events. -/
structure State where
  /-- `OP`: the last value the host wrote to it (R28). -/
  op : Byte
  /-- `STATUS`: the completion code of the last operation (R28). -/
  status : Byte
  /-- `A`, scalar operand (R27). -/
  a : Half
  /-- `R`, scalar result (R27). -/
  r : Half
  /-- `PKT`, the packet descriptor (R21). -/
  pkt : Pkt
  /-- `O`, the option staging register (R23). -/
  o : OptReg
  /-- `nopt`, 0 to 40 (R24). -/
  nopt : Nat
  /-- `OPTS[0]` to `OPTS[39]` (R24). -/
  opts : Vector OptReg 40
  /-- `plen`, 0 to 65515 (R25). -/
  plen : Nat
  /-- `PAY`, the payload buffer (R25). -/
  pay : Memory
  /-- `wlen`, 0 to 65535 (R26). -/
  wlen : Nat
  /-- `WIRE`, the wire buffer (R26). -/
  wire : Memory
  /-- The model's own field: what the host does next, in order (R20, R80; DESIGN CHOICE, log 1). -/
  host : List HostEvent
deriving DecidableEq, Repr

/-- The reasons the machine stops with a fault. No operation of the block raises one (R41, R179). -/
inductive Fault where
  /-- A host event names a byte or an entry outside the block's capacities (R23 to R26, R40). Raised by
  `hostWrite` and `hostRead`; safe: the model stops where the spec gives no effect (log 7). -/
  | noSuchAddress (loc : Loc)
deriving DecidableEq, Repr

/-- The reasons the machine gives an event no meaning. -/
inductive Refusal where
  /-- Raised by no arm of `exec` now; safe. -/
  | notModelled (mnemonic : String)
  /-- The host writes a value above a register's maximum or width: "the model gives such a write no
  meaning" (R31, U12). Raised by `hostWrite`; safe (log 7). -/
  | valueOutOfRange (loc : Loc) (v : Nat)
  /-- The host reads a byte or an entry beyond the length that bounds it, which holds no value
  (R23 to R26, U13). Raised by `hostRead`; safe (log 7). -/
  | noValueHere (loc : Loc)
deriving DecidableEq, Repr

/-- The outcome of an event or an operation. -/
abbrev Result := Host.Outcome State Fault Refusal

/-- The default Packet at reset: "version 4, header-length 5, TTL 64, protocol 6, zero
id/flags/offset", total length 20, zero addresses (R32). -/
def Pkt.reset : Pkt :=
  { ver := 4, ihl := 5, tos := 0, tlen := 20, id := 0, flags := 0, foff := 0, ttl := 64, proto := 6,
    cksum := 0, src := Vector.replicate 4 0, dst := Vector.replicate 4 0 }

/-- The machine right after reset (R32, R190). The buffers list nothing, and no host event is
pending. -/
def State.reset : State :=
  { op := 0x00
    status := 0
    a := 0
    r := 0
    pkt := Pkt.reset
    o := OptReg.empty
    nopt := 0
    opts := Vector.replicate 40 OptReg.empty
    plen := 0
    pay := []
    wlen := 0
    wire := []
    host := [] }

end Sys2Proof.Machine
end

