-- ==== Sys2Proof/Machine/Ops.lean ====
section
/-! DEFINITION. The named operations over memory and over the whole state: `MemRead` and `MemWrite`
(`00_scope.md` R9), the completion code of a kind, ending an operation, and raising an error
(`60_exceptions.md` R170, R179, R180). -/

namespace Sys2Proof.Machine

/-- One byte of a buffer (R45). -/
def Memory.byte : Memory → Nat → Byte
  | [], _ => Config.unwrittenByte
  | (k, b) :: m, a => if k = a then b else Memory.byte m a

/-- `MemRead(buf, addr, n)`: the bytes `buf[addr : addr+n)` (R9). -/
def Memory.read (m : Memory) (addr n : Nat) : List Byte :=
  (List.range' addr n).map m.byte

/-- The canonical entries of a byte sequence stored from an address on. -/
def Memory.cells : Nat → List Byte → Memory
  | _, [] => []
  | addr, b :: bs =>
    if b = Config.unwrittenByte then Memory.cells (addr + 1) bs
    else (addr, b) :: Memory.cells (addr + 1) bs

/-- `MemWrite(buf, addr, n, v)` with `n` the length of `v` (R9). -/
def Memory.write (m : Memory) (addr : Nat) (bs : List Byte) : Memory :=
  m.filter (fun c => decide (c.1 < addr)) ++
    (Memory.cells addr bs ++ m.filter (fun c => decide (addr + bs.length ≤ c.1)))

/-- The code of a completion kind in `STATUS` (R170). -/
def Completion.code : Completion → Byte
  | .ok => 0
  | .tooShort => 1
  | .truncatedOption => 2
  | .malformedOptionsRegion => 3
  | .badOperand => 4
  | .illegalOp => 5

/-- The successful end of an operation, `STATUS <- OK` (R179). -/
def complete (s : State) : Result := .next { s with status := Completion.ok.code }

/-- `raise <Kind>`: the operation ends with the kind's code in `STATUS` and no other state changes
(R10, R179, R180). This is the whole of taking an exception here: nothing is saved, no mode changes,
control goes nowhere; and there is no return from it, since the next operation overwrites `STATUS`
(R181). -/
def raise (k : Completion) (s : State) : Result := .next { s with status := k.code }

/-- `f(x)?`: if the function gave an error kind, raise it, else go on with its value (R11). -/
def orRaise {α : Type} (x : Except Completion α) (s : State) (f : α → Result) : Result :=
  match x with
  | .error k => raise k s
  | .ok v => f v

end Sys2Proof.Machine
end

