-- ==== Sys2Proof/Machine/Operands.lean ====
section
/-! DEFINITION. Operand forms: the bit fields of bytes and halfwords (`40_bitfield_unpacker.md` R100,
`41_option_codec.md` R110), the big-endian layout (`00_scope.md` R7, `20_memory.md` R43), and how
operations read their operands from registers (`10_state.md` R27, `30_encoding.md` R77). -/

namespace Sys2Proof.Machine

/-- `ver(b) = b[7:4]` (R100). -/
def ver (b : Byte) : BitVec 4 := b.extractLsb' 4 4
/-- `ihlw(b) = b[3:0]` (R100). -/
def ihlw (b : Byte) : BitVec 4 := b.extractLsb' 0 4
/-- `flg(h) = h[15:13]` (R100). -/
def flg (h : Half) : BitVec 3 := h.extractLsb' 13 3
/-- `foff(h) = h[12:0]` (R100). -/
def foff (h : Half) : BitVec 13 := h.extractLsb' 0 13

/-- `copied(t) = t[7]` (R110). -/
def copied (t : Byte) : BitVec 1 := t.extractLsb' 7 1
/-- `class(t) = t[6:5]` (R110). -/
def cls (t : Byte) : BitVec 2 := t.extractLsb' 5 2
/-- `number(t) = t[4:0]` (R110). -/
def number (t : Byte) : BitVec 5 := t.extractLsb' 0 5
/-- `single(t)`: the number is 0 or 1 (R110). -/
def single (t : Byte) : Bool := number t = 0 || number t = 1
/-- `isEOL(t)`: the number is 0 (R110). -/
def isEOL (t : Byte) : Bool := number t = 0

/-- The version and header-length byte, `ver ∥ ihl` (R62). -/
def verIhlByte (v l : BitVec 4) : Byte := v ++ l
/-- The flags and fragment-offset halfword, `flags ∥ foff` (R63). -/
def flagsFoffHalf (f : BitVec 3) (o : BitVec 13) : Half := f ++ o

/-- `BE16(v) = [v[15:8], v[7:0]]` (R7). -/
def be16 (v : Half) : List Byte := [v.extractLsb' 8 8, v.extractLsb' 0 8]

/-- Byte `k` of a byte sequence. It is used only where a length check has shown that there is one
(R41). -/
def byteAt (bs : List Byte) (k : Nat) : Byte := bs.getD k 0

/-- `be16(B, k) = B[k] ∥ B[k+1]` (R7). -/
def be16At (bs : List Byte) (k : Nat) : Half := byteAt bs k ++ byteAt bs (k + 1)

/-- The four bytes of an address at offset `k`, in sequence order (R65). -/
def addressAt (bs : List Byte) (k : Nat) : Vector Byte 4 :=
  #v[byteAt bs k, byteAt bs (k + 1), byteAt bs (k + 2), byteAt bs (k + 3)]

/-- The operand byte `A[7:0]`; `A[15:8]` is ignored (R77). -/
def operandByte (s : State) : Byte := s.a.extractLsb' 0 8

/-- A scalar result, zero-extended to 16 bits, goes to `R`, and the operation ends `OK` (R27, R77). -/
def completeScalar {n : Nat} (v : BitVec n) (s : State) : Result :=
  complete { s with r := v.setWidth 16 }

/-- A count of bytes as the 16-bit value of `R` (R27). -/
def countHalf (n : Nat) : Half := BitVec.ofNat 16 n

/-- The option held in option registers: its value is `val[0 : vlen)` (R23, R117, R143). -/
def OptReg.value (o : OptReg) : OptVal :=
  { typ := o.typ, len := o.len, val := o.val.read 0 o.vlen }

/-- The registers that hold an option: `vlen` is the length of its value, and the buffer holds exactly
the value (R121, R148; what lies beyond `vlen` holds no value, DESIGN CHOICE, log 6). -/
def OptVal.toReg (o : OptVal) : OptReg :=
  { typ := o.typ, len := o.len, vlen := o.val.length, val := Memory.cells 0 o.val }

/-- The option list entries `OPTS[0]` to `OPTS[nopt−1]`, in order (R24). -/
def optList (s : State) : List OptVal := (s.opts.toList.take s.nopt).map OptReg.value

/-- The payload `PAY[0 : plen)` (R25). -/
def payload (s : State) : List Byte := s.pay.read 0 s.plen

/-- The wire bytes `WIRE[0 : wlen)` (R26). -/
def wireBytes (s : State) : List Byte := s.wire.read 0 s.wlen

/-- `OPTS[k + i] <- os[i]`, for every `i` (R148). -/
def storeOpts : Nat → List OptVal → Vector OptReg 40 → Vector OptReg 40
  | _, [], v => v
  | k, o :: os, v => storeOpts (k + 1) os (v.setIfInBounds k o.toReg)

end Sys2Proof.Machine
end

