-- ==== Sys2Proof/Machine/Flags.lean ====
section
/-! DEFINITION. The checksum computation, the one arithmetic of the block (`43_checksum.md` R160 to
R162). The block has no condition codes: `STATUS` is its only status, and its codes are in `Ops.lean`
(`10_state.md` R30). -/

namespace Sys2Proof.Machine

/-- The plain sum of the 16-bit big-endian words; an odd last byte is the high byte of a word whose low
byte is zero (R160, R162). -/
def wordSum : List Byte → Nat
  | [] => 0
  | [hi] => hi.toNat * 256
  | hi :: lo :: rest => hi.toNat * 256 + lo.toNat + wordSum rest

/-- `while s > 0xFFFF: s = (s mod 65536) + (s div 65536)`, at most `fuel` times (R160). Each turn takes
at least 65535 off, so a sum of `n` words needs at most `n` turns. -/
def foldCarry : Nat → Nat → Nat
  | 0, s => s
  | fuel + 1, s => if s > 0xFFFF then foldCarry fuel (s % 65536 + s / 65536) else s

/-- The folded one's-complement sum of the words (R160, R161). -/
def onesSum (bs : List Byte) : Nat := foldCarry bs.length (wordSum bs)

/-- `cksum(B) = 0xFFFF − s`, `s` the folded sum (R160). -/
def cksum (bs : List Byte) : Half := BitVec.ofNat 16 (0xFFFF - onesSum bs)

end Sys2Proof.Machine
end

