-- ==== Sys2Proof/Machine/Checksum.lean ====
section
/-! DEFINITION. The checksum engine: `CKSUM` (`43_checksum.md`). -/

namespace Sys2Proof.Machine

/-- `CKSUM`: the internet checksum of `WIRE[0 : A)`, bytes as they are (R164). -/
def execCksum (s : State) : Result :=
  if s.a.toNat > s.wlen then raise .badOperand s
  else complete { s with r := cksum (s.wire.read 0 s.a.toNat) }

end Sys2Proof.Machine
end

