-- ==== Sys2Proof/Machine/OptionCodec.lean ====
section
/-! DEFINITION. The option codec: `OCPY`, `OCLS`, `ONUM`, `OPTENC`, `OPTDEC`, and the option type bytes
of format `OPTTYPE` (`41_option_codec.md`). -/

namespace Sys2Proof.Machine

/-- `OCPY`: `R <- zext_16(copied(A[7:0]))` (R111). -/
def execOcpy (s : State) : Result := completeScalar (copied (operandByte s)) s

/-- `OCLS`: `R <- zext_16(class(A[7:0]))` (R112). -/
def execOcls (s : State) : Result := completeScalar (cls (operandByte s)) s

/-- `ONUM`: `R <- zext_16(number(A[7:0]))` (R113). -/
def execOnum (s : State) : Result := completeScalar (number (operandByte s)) s

/-- `optEncode(o)` (R114): the type byte of a single-byte option; type, length and exactly `len − 2`
value bytes of another, excess value bytes dropped (R116). An option with `len` below 2 or with too
few value bytes is refused (R115). -/
def optEncode (o : OptVal) : Except Completion (List Byte) :=
  if single o.typ then .ok [o.typ]
  else if o.len.toNat < 2 then .error .badOperand
  else if o.val.length < o.len.toNat - 2 then .error .badOperand
  else .ok (o.typ :: o.len :: o.val.take (o.len.toNat - 2))

/-- `optDecode(B)` (R118): the option at the front of the window, if there is one, and the count of
bytes it takes. A single-byte option has length 0 and no value (R120); a type byte alone and a length
byte below 2 are truncated options (R119). -/
def optDecode : List Byte → Except Completion (Option OptVal × Nat)
  | [] => .ok (none, 0)
  | t :: rest =>
    if single t then .ok (some { typ := t, len := 0, val := [] }, 1)
    else
      match rest with
      | [] => .error .truncatedOption
      | l :: body =>
        if l.toNat < 2 then .error .truncatedOption
        else if l.toNat > body.length + 2 then .error .truncatedOption
        else .ok (some { typ := t, len := l, val := body.take (l.toNat - 2) }, l.toNat)

/-- `OPTENC`: the encoding of the option in `O` goes to `WIRE[0:n)`, `wlen` and `R` become `n`
(R117). -/
def execOptenc (s : State) : Result :=
  orRaise (optEncode s.o.value) s fun b =>
    complete { s with wire := s.wire.write 0 b, wlen := b.length, r := countHalf b.length }

/-- The result writes of `OPTDEC`: `O`, if an option was decoded, and `R` (R121). -/
def storeDecoded (s : State) (d : Option OptVal × Nat) : Result :=
  match d.1 with
  | none => complete { s with r := countHalf d.2 }
  | some v => complete { s with o := v.toReg, r := countHalf d.2 }

/-- `OPTDEC`: parse one option from `WIRE[A : wlen)` (R121). -/
def execOptdec (s : State) : Result :=
  if s.a.toNat > s.wlen then raise .badOperand s
  else orRaise (optDecode (s.wire.read s.a.toNat (s.wlen - s.a.toNat))) s (storeDecoded s)

/-- What the option decoder does at the cursor `A` when the type byte there is `t`: the window is `t`
and the bytes after the cursor (R118, R121; log 4). -/
def decodeElement (t : Byte) (s : State) : Result :=
  orRaise (optDecode (t :: s.wire.read (s.a.toNat + 1) (s.wlen - (s.a.toNat + 1)))) s
    (storeDecoded s)

/-- `OPT_EOL`, a type byte with number 0 (R68). -/
def execOptEol (c : BitVec 1) (k : BitVec 2) (s : State) : Result :=
  decodeElement (typeByte c k 0#5) s

/-- `OPT_NOP`, a type byte with number 1 (R68). -/
def execOptNop (c : BitVec 1) (k : BitVec 2) (s : State) : Result :=
  decodeElement (typeByte c k 1#5) s

/-- `OPT_TLV`, a type byte with a number from 16 to 31 (R69). -/
def execOptTlv16 (c : BitVec 1) (k : BitVec 2) (n : BitVec 4) (s : State) : Result :=
  decodeElement (typeByte c k (1#1 ++ n)) s

/-- `OPT_TLV`, a type byte with a number from 8 to 15 (R69). -/
def execOptTlv8 (c : BitVec 1) (k : BitVec 2) (n : BitVec 3) (s : State) : Result :=
  decodeElement (typeByte c k (1#2 ++ n)) s

/-- `OPT_TLV`, a type byte with a number from 4 to 7 (R69). -/
def execOptTlv4 (c : BitVec 1) (k : BitVec 2) (n : BitVec 2) (s : State) : Result :=
  decodeElement (typeByte c k (1#3 ++ n)) s

/-- `OPT_TLV`, a type byte with number 2 or 3 (R69). -/
def execOptTlv2 (c : BitVec 1) (k : BitVec 2) (n : BitVec 1) (s : State) : Result :=
  decodeElement (typeByte c k (1#4 ++ n)) s

end Sys2Proof.Machine
end

