-- ==== Sys2Proof/Machine/HeaderEngine.lean ====
section
/-! DEFINITION. The header and options engine: `PKTNEW`, `WITHOPT`, `HDRENC`, `HDRDEC`
(`42_header_engine.md`). -/

namespace Sys2Proof.Machine

/-- `PKTNEW`: the default header fields, total length `20 + plen`, no options; addresses and payload
stay (R131). -/
def execPktnew (s : State) : Result :=
  complete
    { s with
      pkt :=
        { s.pkt with
          ver := Config.versionDefault
          ihl := BitVec.ofNat 4 Config.ihlDefault
          tos := 0
          tlen := BitVec.ofNat 16 (Config.baseHdr + s.plen)
          id := 0
          flags := 0
          foff := 0
          ttl := Config.ttlDefault
          proto := Config.protoDefault
          cksum := 0 }
      nopt := 0 }

/-- `WITHOPT`: `OPTS[nopt] <- O`, `nopt <- nopt + 1`; a full list refuses (R133).
The buffer `O.val` is copied as it stands; the spec does not say what the entry's buffer holds at or above
`vlen` (R23, U13): DESIGN CHOICE, unsafe, log 12. -/
def execWithopt (s : State) : Result :=
  if Config.optMax ≤ s.nopt then raise .badOperand s
  else complete { s with opts := s.opts.setIfInBounds s.nopt s.o, nopt := s.nopt + 1 }

/-- Step 1 of `hdrEncode`: the encodings of the options in order; the first refused one ends it
(R140). -/
def encodeOptions : List OptVal → Except Completion (List Byte)
  | [] => .ok []
  | o :: os =>
    match optEncode o with
    | .error k => .error k
    | .ok b =>
      match encodeOptions os with
      | .error k => .error k
      | .ok bs => .ok (b ++ bs)

/-- `pad(ob)` (R141): no-operation bytes up to length 3 mod 4, then one end-of-list byte; nothing when
the length is a multiple of 4. -/
def pad (ob : List Byte) : List Byte :=
  if ob.length % 4 = 0 then ob
  else ob ++ List.replicate (3 - ob.length % 4) Config.nopByte ++ [Config.eolByte]

/-- The 20 bytes of the fixed header (R60), with the given header length, total length and
checksum. -/
def fixedHeader (p : Pkt) (ihl : BitVec 4) (tlen ck : Half) : List Byte :=
  [verIhlByte p.ver ihl, p.tos] ++ be16 tlen ++ be16 p.id ++ be16 (flagsFoffHalf p.flags p.foff) ++
    [p.ttl, p.proto] ++ be16 ck ++ p.src.toList ++ p.dst.toList

/-- What `hdrEncode` returns: the bytes and the three recomputed fields (R140). -/
structure Encoded where
  bytes : List Byte
  ihl : BitVec 4
  tlen : Half
  ck : Half
deriving DecidableEq, Repr

/-- Steps 3 to 6 of `hdrEncode`, the padded options buffer being `ob` (R140): the checksum is computed
over header and options with the checksum field zero. -/
def assemble (p : Pkt) (ob pay : List Byte) : Encoded :=
  let ihl : BitVec 4 := BitVec.ofNat 4 (Config.ihlDefault + ob.length / 4)
  let tlen : Half := BitVec.ofNat 16 (Config.baseHdr + ob.length + pay.length)
  let ck := cksum (fixedHeader p ihl tlen 0 ++ ob)
  { bytes := fixedHeader p ihl tlen ck ++ ob ++ pay, ihl := ihl, tlen := tlen, ck := ck }

/-- `hdrEncode(hdr, opts, pay)` (R140), with the refusals of R142 in the order of R178. -/
def hdrEncode (p : Pkt) (opts : List OptVal) (pay : List Byte) : Except Completion Encoded :=
  match encodeOptions opts with
  | .error k => .error k
  | .ok raw =>
    if (pad raw).length > Config.maxOptRegion then .error .badOperand
    else if Config.baseHdr + (pad raw).length + pay.length > Config.maxTotal then .error .badOperand
    else .ok (assemble p (pad raw) pay)

/-- `HDRENC`: serialize the Packet into `WIRE` and recompute three `PKT` registers (R143). -/
def execHdrenc (s : State) : Result :=
  orRaise (hdrEncode s.pkt (optList s) (payload s)) s fun e =>
    complete
      { s with
        wire := s.wire.write 0 e.bytes
        wlen := e.bytes.length
        pkt := { s.pkt with ihl := e.ihl, tlen := e.tlen, cksum := e.ck } }

/-- The option loop of `HDRDEC` from a cursor on, at most `fuel` turns (R146). Each option takes at
least one byte, so `hl − cursor` turns are enough. The window of an option runs to the end of the
input. -/
def parseLoop (w : List Byte) (hl : Nat) : Nat → Nat → Except Completion (List OptVal)
  | 0, _ => .ok []
  | fuel + 1, cursor =>
    if cursor < hl then
      match optDecode (w.drop cursor) with
      | .error k => .error k
      | .ok (none, _) => .ok []
      | .ok (some o, n) =>
        if cursor + n > hl then .error .malformedOptionsRegion
        else if isEOL o.typ then .ok [o]
        else
          match parseLoop w hl fuel (cursor + n) with
          | .error k => .error k
          | .ok os => .ok (o :: os)
    else .ok []

/-- `parseOptions(W, hl)`: the options of the region `[20, hl)` (R146). -/
def parseOptions (w : List Byte) (hl : Nat) : Except Completion (List OptVal) :=
  parseLoop w hl (hl - Config.baseHdr) Config.baseHdr

/-- The fields at their fixed offsets (R145). -/
def decodeFields (w : List Byte) : Pkt :=
  { ver := ver (byteAt w 0)
    ihl := ihlw (byteAt w 0)
    tos := byteAt w 1
    tlen := be16At w 2
    id := be16At w 4
    flags := flg (be16At w 6)
    foff := foff (be16At w 6)
    ttl := byteAt w 8
    proto := byteAt w 9
    cksum := be16At w 10
    src := addressAt w 12
    dst := addressAt w 16 }

/-- What `hdrDecode` returns: fields, options, payload (R145). -/
structure Decoded where
  pkt : Pkt
  opts : List OptVal
  pay : List Byte
deriving DecidableEq, Repr

/-- `hdrDecode(W)` (R145 to R147), the tests in the order of R177. Version, total length and checksum
are not checked (R149). -/
def hdrDecode (w : List Byte) : Except Completion Decoded :=
  if w.length < Config.baseHdr then .error .tooShort
  else
    let p := decodeFields w
    let hl := p.ihl.toNat * 4
    if hl < Config.baseHdr then .error .malformedOptionsRegion
    else if w.length < hl then .error .tooShort
    else
      match parseOptions w hl with
      | .error k => .error k
      | .ok opts => .ok { pkt := p, opts := opts, pay := w.drop hl }

/-- `HDRDEC`: parse the datagram in `WIRE` into `PKT`, `OPTS` and `PAY` (R148). -/
def execHdrdec (s : State) : Result :=
  orRaise (hdrDecode (wireBytes s)) s fun d =>
    complete
      { s with
        pkt := d.pkt
        opts := storeOpts 0 d.opts s.opts
        nopt := d.opts.length
        pay := s.pay.write 0 d.pay
        plen := d.pay.length }

end Sys2Proof.Machine
end

