-- ==== Sys2Proof/Machine/Unpacker.lean ====
section
/-! DEFINITION. The bitfield unpacker: `VER`, `IHL`, `FLG`, `FOFF` (`40_bitfield_unpacker.md`). -/

namespace Sys2Proof.Machine

/-- `VER`: `R <- zext_16(ver(A[7:0]))` (R101). -/
def execVer (s : State) : Result := completeScalar (ver (operandByte s)) s

/-- `IHL`: `R <- zext_16(ihlw(A[7:0]))` (R102). -/
def execIhl (s : State) : Result := completeScalar (ihlw (operandByte s)) s

/-- `FLG`: `R <- zext_16(flg(A))` (R103). -/
def execFlg (s : State) : Result := completeScalar (flg s.a) s

/-- `FOFF`: `R <- zext_16(foff(A))` (R104). -/
def execFoff (s : State) : Result := completeScalar (foff s.a) s

end Sys2Proof.Machine
end

