-- ==== Sys2Proof/Machine/Dispatch.lean ====
section
/-! DEFINITION. One arm per instruction. -/

namespace Sys2Proof.Machine

def exec (i : Instr) (s : State) : Host.Outcome State Fault Refusal :=
  match i with
  | .ver => Sys2Proof.Machine.execVer s
  | .ihl => Sys2Proof.Machine.execIhl s
  | .flg => Sys2Proof.Machine.execFlg s
  | .foff => Sys2Proof.Machine.execFoff s
  | .ocpy => Sys2Proof.Machine.execOcpy s
  | .ocls => Sys2Proof.Machine.execOcls s
  | .onum => Sys2Proof.Machine.execOnum s
  | .optenc => Sys2Proof.Machine.execOptenc s
  | .optdec => Sys2Proof.Machine.execOptdec s
  | .pktnew => Sys2Proof.Machine.execPktnew s
  | .withopt => Sys2Proof.Machine.execWithopt s
  | .hdrenc => Sys2Proof.Machine.execHdrenc s
  | .hdrdec => Sys2Proof.Machine.execHdrdec s
  | .cksum => Sys2Proof.Machine.execCksum s
  | .optEol c k => Sys2Proof.Machine.execOptEol c k s
  | .optNop c k => Sys2Proof.Machine.execOptNop c k s
  | .optTlv16 c k n => Sys2Proof.Machine.execOptTlv16 c k n s
  | .optTlv8 c k n => Sys2Proof.Machine.execOptTlv8 c k n s
  | .optTlv4 c k n => Sys2Proof.Machine.execOptTlv4 c k n s
  | .optTlv2 c k n => Sys2Proof.Machine.execOptTlv2 c k n s

end Sys2Proof.Machine
end

