-- ==== Sys2Proof/Machine/HostPort.lean ====
section
/-! DEFINITION. The host's plain reads and writes (`10_state.md` R28, R31). -/

namespace Sys2Proof.Machine

/-- `OPTS[k]` (R24). -/
def optAt (s : State) (k : Nat) : OptReg := (s.opts[k]?).getD OptReg.empty

/-- `OPTS[k]` changed by `f` (R24). -/
def modifyOpt (s : State) (k : Nat) (f : OptReg → OptReg) : State :=
  { s with opts := s.opts.setIfInBounds k (f (optAt s k)) }

/-- The value at a place (R31). -/
def locValue (s : State) : Loc → Nat
  | .op => s.op.toNat
  | .status => s.status.toNat
  | .a => s.a.toNat
  | .r => s.r.toNat
  | .ver => s.pkt.ver.toNat
  | .ihl => s.pkt.ihl.toNat
  | .tos => s.pkt.tos.toNat
  | .tlen => s.pkt.tlen.toNat
  | .id => s.pkt.id.toNat
  | .flags => s.pkt.flags.toNat
  | .foff => s.pkt.foff.toNat
  | .ttl => s.pkt.ttl.toNat
  | .proto => s.pkt.proto.toNat
  | .cksum => s.pkt.cksum.toNat
  | .src i => ((s.pkt.src[i]?).getD 0).toNat
  | .dst i => ((s.pkt.dst[i]?).getD 0).toNat
  | .oTyp => s.o.typ.toNat
  | .oLen => s.o.len.toNat
  | .oVlen => s.o.vlen
  | .oVal i => (s.o.val.byte i).toNat
  | .nopt => s.nopt
  | .optTyp k => (optAt s k).typ.toNat
  | .optLen k => (optAt s k).len.toNat
  | .optVlen k => (optAt s k).vlen
  | .optVal k i => ((optAt s k).val.byte i).toNat
  | .plen => s.plen
  | .pay i => (s.pay.byte i).toNat
  | .wlen => s.wlen
  | .wire i => (s.wire.byte i).toNat

/-- The state with a value put at a place. A write to `STATUS` is ignored (R28). Writing a length does
not change the buffer it bounds, and a buffer byte may be written beyond the length (log 5). -/
def putLoc (l : Loc) (v : Nat) (s : State) : State :=
  match l with
  | .op => { s with op := BitVec.ofNat 8 v }
  | .status => s
  | .a => { s with a := BitVec.ofNat 16 v }
  | .r => { s with r := BitVec.ofNat 16 v }
  | .ver => { s with pkt := { s.pkt with ver := BitVec.ofNat 4 v } }
  | .ihl => { s with pkt := { s.pkt with ihl := BitVec.ofNat 4 v } }
  | .tos => { s with pkt := { s.pkt with tos := BitVec.ofNat 8 v } }
  | .tlen => { s with pkt := { s.pkt with tlen := BitVec.ofNat 16 v } }
  | .id => { s with pkt := { s.pkt with id := BitVec.ofNat 16 v } }
  | .flags => { s with pkt := { s.pkt with flags := BitVec.ofNat 3 v } }
  | .foff => { s with pkt := { s.pkt with foff := BitVec.ofNat 13 v } }
  | .ttl => { s with pkt := { s.pkt with ttl := BitVec.ofNat 8 v } }
  | .proto => { s with pkt := { s.pkt with proto := BitVec.ofNat 8 v } }
  | .cksum => { s with pkt := { s.pkt with cksum := BitVec.ofNat 16 v } }
  | .src i => { s with pkt := { s.pkt with src := s.pkt.src.setIfInBounds i (BitVec.ofNat 8 v) } }
  | .dst i => { s with pkt := { s.pkt with dst := s.pkt.dst.setIfInBounds i (BitVec.ofNat 8 v) } }
  | .oTyp => { s with o := { s.o with typ := BitVec.ofNat 8 v } }
  | .oLen => { s with o := { s.o with len := BitVec.ofNat 8 v } }
  | .oVlen => { s with o := { s.o with vlen := v } }
  | .oVal i => { s with o := { s.o with val := s.o.val.write i [BitVec.ofNat 8 v] } }
  | .nopt => { s with nopt := v }
  | .optTyp k => modifyOpt s k fun o => { o with typ := BitVec.ofNat 8 v }
  | .optLen k => modifyOpt s k fun o => { o with len := BitVec.ofNat 8 v }
  | .optVlen k => modifyOpt s k fun o => { o with vlen := v }
  | .optVal k i => modifyOpt s k fun o => { o with val := o.val.write i [BitVec.ofNat 8 v] }
  | .plen => { s with plen := v }
  | .pay i => { s with pay := s.pay.write i [BitVec.ofNat 8 v] }
  | .wlen => { s with wlen := v }
  | .wire i => { s with wire := s.wire.write i [BitVec.ofNat 8 v] }

/-- Whether a place holds a value the host may read: bytes and entries beyond the length that bounds
them hold none (R23 to R26, U13). -/
def holdsValue (s : State) : Loc → Bool
  | .oVal i => i < s.o.vlen
  | .optTyp k | .optLen k | .optVlen k => k < s.nopt
  | .optVal k i => k < s.nopt && i < (optAt s k).vlen
  | .pay i => i < s.plen
  | .wire i => i < s.wlen
  | .op | .status | .a | .r | .ver | .ihl | .tos | .tlen | .id | .flags | .foff | .ttl | .proto
  | .cksum | .src _ | .dst _ | .oTyp | .oLen | .oVlen | .nopt | .plen | .wlen => true

/-- What the host gets when it reads a place: its value, or nothing where there is none (R31, U13). -/
def hostValue (s : State) (l : Loc) : Option Nat :=
  if l.present && holdsValue s l then some (locValue s l) else none

/-- A host write (R31). A place that does not exist stops the machine; a value above the place's
maximum has no meaning (log 7). -/
def hostWrite (l : Loc) (v : Nat) (s : State) : Result :=
  if l.present then
    if v ≤ l.limit then .next (putLoc l v s) else .refused (.valueOutOfRange l v)
  else .fault (.noSuchAddress l)

/-- A host read changes nothing (R45); a read of what holds no value has no meaning (U13, log 7). -/
def hostRead (l : Loc) (s : State) : Result :=
  if l.present then
    if holdsValue s l then .next s else .refused (.noValueHere l)
  else .fault (.noSuchAddress l)

end Sys2Proof.Machine
end

