-- ==== Sys2Proof/Machine/Issue.lean ====
section
/-! DEFINITION. Running one host event: plain accesses, starting an operation, reset
(`10_state.md` R20, R28, R31; `70_reset_and_hazards.md` R190). -/

namespace Sys2Proof.Machine

/-- The operation whose code stands in `OP` runs from start to end; a code that is none of the 14 only
sets `STATUS <- IllegalOp` (R28, R75, R76). -/
def startOp (s : State) : Result :=
  match decodeOp s.op with
  | .ok i => exec i s
  | .error _ => raise .illegalOp s

/-- One host event on a state. A write lands, and a write to `OP` then starts the operation (R28).
Reset gives the reset state; what the host does afterwards is the host's and stays (R190, log 8). -/
def runEvent (e : HostEvent) (s : State) : Result :=
  match e with
  | .write l v =>
    match hostWrite l v s with
    | .next s' => if l = .op then startOp s' else .next s'
    | .fault f => .fault f
    | .refused q => .refused q
  | .read l => hostRead l s
  | .reset => .next { State.reset with host := s.host }

/-- The state in which the option decoder is about to meet a given type byte: the byte stands at the
cursor, which is 0, zero bytes follow it up to the longest option, and the host starts `OPTDEC`
(R121; log 4). -/
def placeOptType (s : State) (t : Byte) : State :=
  { s with
    a := 0
    wire := s.wire.write 0 (t :: List.replicate 254 0)
    wlen := 255
    host := .write .op 0x29 :: s.host }

/-- The state in which the host is about to write a given code to `OP` (R28). -/
def placeOp (s : State) (code : Byte) : State :=
  { s with host := .write .op code.toNat :: s.host }

end Sys2Proof.Machine
end

