-- ==== Sys2Proof/Machine/Step.lean ====
section
/-! DEFINITION. One step of the machine: the host's next event, or nothing when none is pending. -/

namespace Sys2Proof.Machine

/-- The next host event is taken and run. "Between operations the block does nothing and changes
nothing" (R20): with no event pending the state stays. -/
def step (s : State) : Host.Outcome State Fault Refusal :=
  match s.host with
  | [] => .next s
  | e :: rest => runEvent e { s with host := rest }

/-- The state in which the very next step runs the instruction that `decodeTableWord` reads: a code of
`OP8` is what the host writes to `OP` next; any other byte is an option type byte at the cursor, and
the host starts `OPTDEC` (log 4). -/
def State.withFetchWord (s : State) (nbits w : Nat) : State :=
  match decodeTableWord nbits w with
  | some i =>
    match i.format with
    | .op8 => placeOp s (BitVec.ofNat 8 w)
    | .optType => placeOptType s (BitVec.ofNat 8 w)
  | none => placeOp s (BitVec.ofNat 8 w)

end Sys2Proof.Machine
end

