-- ==== Sys2Proof/Safety.lean ====
section
/-! DEFINITION. What claims call a legal state: lengths within their maxima, buffers canonical and
within their capacities, and a `STATUS` the block can produce (`10_state.md` R23 to R28,
`70_reset_and_hazards.md` R191). -/

namespace Sys2Proof.Machine

/-- Option registers within their ranges (R23). -/
abbrev OptReg.Legal (o : OptReg) : Prop :=
  o.vlen ≤ Config.valCap ∧ o.val.wf ∧ o.val.within Config.valCap

/-- A buffer in canonical form whose entries and length lie within its capacity (R25, R26). -/
abbrev Memory.Legal (cap len : Nat) (m : Memory) : Prop := len ≤ cap ∧ m.wf ∧ m.within cap

/-- A legal state of the block: `O`, every list entry, the list's count, both buffers with their
lengths, and `STATUS` are within the ranges the spec gives them. -/
abbrev State.Legal (s : State) : Prop :=
  s.o.Legal ∧ (∀ o ∈ s.opts.toList, o.Legal) ∧ s.nopt ≤ Config.optMax ∧
    Memory.Legal Config.payCap s.plen s.pay ∧ Memory.Legal Config.wireCap s.wlen s.wire ∧
    s.status.toNat ≤ 5

/-- A safe run of `k` steps: no host event breaks the host's duties (R31, R195), so the machine does
not stop. -/
def SafeFor : Nat → State → Prop
  | 0, _ => True
  | k + 1, s => ∃ s', step s = .next s' ∧ SafeFor k s'

end Sys2Proof.Machine
end

