-- ==== Sys2Proof/Certificates/Slice0/Obligations.lean ====
section
/-! DEFINITION. The statements for the provers. Each docstring names the rule of spec/ it follows.
The helpers under `Sys2Proof.Claims` say what the rules say, in the rules' own terms (numbers, bytes by
index), not in the terms of the meanings. -/

open Sys2Proof Sys2Proof.Machine

namespace Sys2Proof.Claims

/-- The 14 operation codes of R75. -/
def opCodes : List Nat :=
  [0x10, 0x11, 0x12, 0x13, 0x20, 0x21, 0x22, 0x28, 0x29, 0x30, 0x31, 0x38, 0x39, 0x40]

/-- A type byte whose number is 0 or 1 (R68). -/
abbrev IsSingle (t : Byte) : Prop := t.toNat % 32 ≤ 1

/-- An option in registers that `optEncode` accepts (R115): single-byte, or length at least 2 and enough
value bytes stored. -/
abbrev Encodable (o : OptReg) : Prop := IsSingle o.typ ∨ 2 ≤ o.len.toNat ∧ o.len.toNat - 2 ≤ o.vlen

/-- The bytes such an option takes on the wire (R114). -/
def optBytes (o : OptReg) : List Byte :=
  if o.typ.toNat % 32 ≤ 1 then [o.typ] else o.typ :: o.len :: o.val.read 0 (o.len.toNat - 2)

/-- The padding that a region of `n` option bytes gets (R141). -/
def padding (n : Nat) : List Byte :=
  if n % 4 = 1 then [0x01, 0x01, 0x00]
  else if n % 4 = 2 then [0x01, 0x00]
  else if n % 4 = 3 then [0x00]
  else []

/-- The options of the list, as registers (R24). -/
def listed (s : State) : List OptReg := s.opts.toList.take s.nopt

/-- The unpadded options bytes of the Packet in the registers (R140, step 1). -/
def rawRegion (s : State) : List Byte := (listed s).flatMap optBytes

/-- The options region as `HDRENC` writes it (R140, steps 1 and 2). -/
def region (s : State) : List Byte := rawRegion s ++ padding (rawRegion s).length

/-- The high and the low byte of a 16-bit number (R7). -/
def beBytes (n : Nat) : List Byte := [BitVec.ofNat 8 (n / 256), BitVec.ofNat 8 (n % 256)]

/-- The fixed header of R60, field by field, as numbers at their offsets. -/
def headerBytes (p : Pkt) (ihl tlen ck : Nat) : List Byte :=
  [BitVec.ofNat 8 (p.ver.toNat * 16 + ihl), p.tos] ++ beBytes tlen ++ beBytes p.id.toNat ++
    beBytes (p.flags.toNat * 8192 + p.foff.toNat) ++ [p.ttl, p.proto] ++ beBytes ck ++
    [p.src[0], p.src[1], p.src[2], p.src[3], p.dst[0], p.dst[1], p.dst[2], p.dst[3]]

/-- The plain sum of the 16-bit big-endian words of `n` bytes given by index: a byte at an even offset
is a high byte, at an odd offset a low byte (R160, R162). -/
def sumOfWords (byteOf : Nat → Byte) (n : Nat) : Nat :=
  ((List.range n).map fun i => if i % 2 = 0 then (byteOf i).toNat * 256 else (byteOf i).toNat).sum

/-- The folded sum by the law of R161. -/
def foldedSum (t : Nat) : Nat := if t = 0 then 0 else (t - 1) % 65535 + 1

/-- The checksum of `n` bytes given by index (R160, R161). -/
def checksumOf (byteOf : Nat → Byte) (n : Nat) : Nat := 0xFFFF - foldedSum (sumOfWords byteOf n)

/-- Everything `HDRENC` needs in order to succeed (R115, R142). -/
abbrev EncodablePacket (s : State) : Prop :=
  (∀ o ∈ listed s, Encodable o) ∧ (region s).length ≤ 40 ∧ 20 + (region s).length + s.plen ≤ 65535

/-- The option loop of R146 from a cursor on. -/
def parseFrom (w : List Byte) (hl cursor : Nat) : Except Completion (List OptVal) :=
  parseLoop w hl (hl - cursor) cursor

/-- An option put in front of what the rest of the loop gives. -/
def consOption (o : OptVal) (x : Except Completion (List OptVal)) : Except Completion (List OptVal) :=
  match x with
  | .error k => .error k
  | .ok os => .ok (o :: os)

/-- An option as it comes back from the wire (R122). -/
def asDecoded (o : OptVal) : OptVal :=
  if o.typ.toNat % 32 ≤ 1 then { typ := o.typ, len := 0, val := [] }
  else { o with val := o.val.take (o.len.toNat - 2) }

/-- The options that padding bytes decode to: `[NOP, NOP, EOL]`, `[NOP, EOL]`, `[EOL]` or none
(R150). -/
def paddingOptions (n : Nat) : List OptVal :=
  (padding n).map fun t => { typ := t, len := 0, val := [] }

/-- The list up to and with its first option of number 0 (R146, R150). -/
def uptoEOL : List OptVal → List OptVal
  | [] => []
  | o :: os => if o.typ.toNat % 32 = 0 then [o] else o :: uptoEOL os

/-- The header length nibble of `WIRE[0]` (R62). -/
def wireIhl (s : State) : Nat := (s.wire.byte 0).toNat % 16

/-- The instructions of format `OPTTYPE`. -/
abbrev IsElement (i : Instr) : Prop := i.format = .optType

/-- A TLV option of length `L` at the cursor `A`, its type byte taken as given, fits in the window
(R118, R119). -/
abbrev TlvFits (s : State) : Prop :=
  s.a.toNat + 1 < s.wlen ∧ 2 ≤ (s.wire.byte (s.a.toNat + 1)).toNat ∧
    s.a.toNat + (s.wire.byte (s.a.toNat + 1)).toNat ≤ s.wlen

/-- What decoding a TLV option with type byte `t` at the cursor leaves when it fits: `O` and `R` hold
the option and its length, nothing else changes but `STATUS` (R118, R121). -/
def TlvStored (i : Instr) (t : Nat) (s : State) : Prop :=
  ∃ o', exec i s = .next
      { s with o := o', r := BitVec.ofNat 16 (s.wire.byte (s.a.toNat + 1)).toNat, status := 0 } ∧
    o'.typ.toNat = t ∧ o'.len = s.wire.byte (s.a.toNat + 1) ∧
    o'.vlen = (s.wire.byte (s.a.toNat + 1)).toNat - 2 ∧
    ∀ j < o'.vlen, o'.val.byte j = s.wire.byte (s.a.toNat + 2 + j)

/-- What decoding a single-byte option with type byte `t` leaves (R118, R120, R121). -/
def SingleStored (i : Instr) (t : Nat) (s : State) : Prop :=
  ∃ o', exec i s = .next { s with o := o', r := 1, status := 0 } ∧
    o'.typ.toNat = t ∧ o'.len = 0 ∧ o'.vlen = 0

end Sys2Proof.Claims

open Sys2Proof.Claims

/-! ### Encodings -/

/-- R75: the 14 codes, each by its row. -/
def Obligations.OperationCodesDecode : Prop :=
  decodeOp 0x10 = .ok .ver ∧ decodeOp 0x11 = .ok .ihl ∧ decodeOp 0x12 = .ok .flg ∧
  decodeOp 0x13 = .ok .foff ∧ decodeOp 0x20 = .ok .ocpy ∧ decodeOp 0x21 = .ok .ocls ∧
  decodeOp 0x22 = .ok .onum ∧ decodeOp 0x28 = .ok .optenc ∧ decodeOp 0x29 = .ok .optdec ∧
  decodeOp 0x30 = .ok .pktnew ∧ decodeOp 0x31 = .ok .withopt ∧ decodeOp 0x38 = .ok .hdrenc ∧
  decodeOp 0x39 = .ok .hdrdec ∧ decodeOp 0x40 = .ok .cksum

/-- R67 to R70: type bytes written out from the spec's patterns (scenario 3 and vectors V20 to V29). -/
def Obligations.OptionTypeWordsDecode : Prop :=
  decodeOptType 0b00000000#8 = .optEol 0 0 ∧ decodeOptType 0b10000000#8 = .optEol 1 0 ∧
  decodeOptType 0b00000001#8 = .optNop 0 0 ∧ decodeOptType 0b11100001#8 = .optNop 1 3 ∧
  decodeOptType 0b11111111#8 = .optTlv16 1 3 0b1111 ∧
  decodeOptType 0b01001011#8 = .optTlv8 0 2 0b011 ∧
  decodeOptType 0b10000110#8 = .optTlv4 1 0 0b10 ∧ decodeOptType 0b10100110#8 = .optTlv4 1 1 0b10 ∧
  decodeOptType 0b00000010#8 = .optTlv2 0 0 0b0

/-- R70: the rows of the type byte by mask and match, with the copied flag and class of the byte. -/
def Obligations.TypeByteRowsFollowMaskAndMatch : Prop :=
  ∀ t : Byte,
    (t &&& 0x1F = 0x00 → decodeOptType t = .optEol (t.extractLsb' 7 1) (t.extractLsb' 5 2)) ∧
    (t &&& 0x1F = 0x01 → decodeOptType t = .optNop (t.extractLsb' 7 1) (t.extractLsb' 5 2)) ∧
    (t &&& 0x10 = 0x10 →
      decodeOptType t = .optTlv16 (t.extractLsb' 7 1) (t.extractLsb' 5 2) (t.extractLsb' 0 4)) ∧
    (t &&& 0x18 = 0x08 →
      decodeOptType t = .optTlv8 (t.extractLsb' 7 1) (t.extractLsb' 5 2) (t.extractLsb' 0 3)) ∧
    (t &&& 0x1C = 0x04 →
      decodeOptType t = .optTlv4 (t.extractLsb' 7 1) (t.extractLsb' 5 2) (t.extractLsb' 0 2)) ∧
    (t &&& 0x1E = 0x02 →
      decodeOptType t = .optTlv2 (t.extractLsb' 7 1) (t.extractLsb' 5 2) (t.extractLsb' 0 1))

/-- R70, R75: decoding the encoding of any instruction gives it back with what follows it, and whatever
decodes is the encoding of what it decodes to. -/
def Obligations.DecodeEncodeAgree : Prop :=
  (∀ (i : Instr) (rest : List Byte), decode i.format (encode i ++ rest) = .ok (i, rest)) ∧
  (∀ (f : Format) (bs : List Byte) (i : Instr) (rest : List Byte),
    decode f bs = .ok (i, rest) → i.format = f ∧ bs = encode i ++ rest)

/-! ### The step and the host -/

/-- R20: "Between operations the block does nothing and changes nothing." -/
def Obligations.IdleBlockChangesNothing : Prop :=
  ∀ s : State, s.host = [] → step s = .next s

/-- R28, R75: a host write of an operation code to `OP` runs exactly that operation, `OP` holding the
code and the event being used up. -/
def Obligations.OpWriteRunsDecodedOperation : Prop :=
  ∀ (s : State) (v : Nat) (rest : List HostEvent) (i : Instr),
    s.host = .write .op v :: rest → v ≤ 255 → decode .op8 [BitVec.ofNat 8 v] = .ok (i, []) →
    step s = exec i { s with host := rest, op := BitVec.ofNat 8 v }

/-- R76: a code that is none of the 14 does nothing but set `STATUS <- IllegalOp`. -/
def Obligations.UndefinedOpCodeSetsIllegalOpOnly : Prop :=
  ∀ (s : State) (v : Nat) (rest : List HostEvent),
    s.host = .write .op v :: rest → v ≤ 255 → v ∉ opCodes →
    step s = .next { s with host := rest, op := BitVec.ofNat 8 v, status := 5 }

/-- R31, R45: a host write (to any place but `OP`, which starts an operation, and `STATUS`) is read back,
and every other place keeps its value. That a byte beyond the length that bounds it is kept too is the
model's reading (log 5). -/
def Obligations.HostWriteReadsBack : Prop :=
  ∀ (s : State) (l : Loc) (v : Nat) (rest : List HostEvent),
    s.host = .write l v :: rest → l.present = true → v ≤ l.limit → l ≠ .op → l ≠ .status →
    ∃ t, step s = .next t ∧ t.host = rest ∧ locValue t l = v ∧
      ∀ l' : Loc, l'.present = true → l' ≠ l → locValue t l' = locValue s l'

/-- R28: "A host write to `STATUS` is ignored." -/
def Obligations.HostWriteToStatusIgnored : Prop :=
  ∀ (s : State) (v : Nat) (rest : List HostEvent),
    s.host = .write .status v :: rest → v ≤ 255 → step s = .next { s with host := rest }

/-- R28: `OP` reads back the last value written, whatever the operation did. -/
def Obligations.OpReadsBackLastWrite : Prop :=
  ∀ (s t : State) (v : Nat) (rest : List HostEvent),
    s.host = .write .op v :: rest → v ≤ 255 → step s = .next t → hostValue t .op = some v

/-- R31, U12, U13 and the model's own stops (log 7): a value above a maximum is refused, a place outside
the capacities is a fault, a read of what holds no value is refused, any other read changes nothing. -/
def Obligations.HostBreachesStopByName : Prop :=
  ∀ (s : State) (l : Loc) (v : Nat) (rest : List HostEvent),
    (s.host = .write l v :: rest → l.present = true → l.limit < v →
      step s = .refused (.valueOutOfRange l v)) ∧
    (s.host = .write l v :: rest → l.present = false → step s = .fault (.noSuchAddress l)) ∧
    (s.host = .read l :: rest → l.present = false → step s = .fault (.noSuchAddress l)) ∧
    (s.host = .read l :: rest → l.present = true → holdsValue s l = false →
      step s = .refused (.noValueHere l)) ∧
    (s.host = .read l :: rest → l.present = true → holdsValue s l = true →
      step s = .next { s with host := rest })

/-- R31, R200 and the model's own check of a host event (`HostEvent.wf`, log 7): an event that names a
place of the block and writes a value that fits there, or reads a value that is there, never stops the
machine, whatever operation it starts. -/
def Obligations.WellFormedEventsNeverStop : Prop :=
  ∀ (s : State) (e : HostEvent) (rest : List HostEvent),
    s.host = e :: rest → e.wf = true → (∀ l, e = .read l → holdsValue s l = true) →
    ∃ t, step s = .next t ∧ (e = .reset ∨ t.host = rest)

/-- R190: reset gives the reset state; what the host does next stays with the host (log 8). -/
def Obligations.ResetEventGivesResetState : Prop :=
  ∀ (s : State) (rest : List HostEvent),
    s.host = .reset :: rest → step s = .next { State.reset with host := rest }

/-- R32: the table of reset values, registers and lengths (`O.val` empty: the value of `O` has no byte),
and `HDRENC` directly after reset, which succeeds with the 20 bytes of vector V40. -/
def Obligations.ResetValuesAsTabled : Prop :=
  State.reset.op = 0x00 ∧ State.reset.status = 0 ∧ State.reset.a = 0x0000 ∧ State.reset.r = 0x0000 ∧
  State.reset.pkt =
    { ver := 4, ihl := 5, tos := 0, tlen := 20, id := 0, flags := 0, foff := 0, ttl := 64,
      proto := 6, cksum := 0, src := #v[0, 0, 0, 0], dst := #v[0, 0, 0, 0] } ∧
  State.reset.nopt = 0 ∧ State.reset.o.value = { typ := 0, len := 0, val := [] } ∧
  State.reset.o.vlen = 0 ∧ State.reset.plen = 0 ∧ State.reset.wlen = 0 ∧
  ∃ t, exec .hdrenc State.reset = .next t ∧ t.status = 0 ∧ t.wlen = 20 ∧
    t.wire.read 0 20 =
      [0x45, 0x00, 0x00, 0x14, 0x00, 0x00, 0x00, 0x00, 0x40, 0x06, 0x7A, 0xE5, 0x00, 0x00, 0x00,
        0x00, 0x00, 0x00, 0x00, 0x00] ∧
    t.pkt.ihl = 5 ∧ t.pkt.tlen = 20 ∧ t.pkt.cksum = 0x7AE5

/-! ### Bitfield unpacker and option classifier -/

/-- R100, R62, R63: the four field functions as quotients and remainders, and the packing they undo. -/
def Obligations.PackedFieldsAreQuotientAndRemainder : Prop :=
  (∀ b : Byte, (ver b).toNat = b.toNat / 16 ∧ (ihlw b).toNat = b.toNat % 16 ∧
    verIhlByte (ver b) (ihlw b) = b) ∧
  (∀ h : Half, (flg h).toNat = h.toNat / 8192 ∧ (foff h).toNat = h.toNat % 8192 ∧
    flagsFoffHalf (flg h) (foff h) = h) ∧
  (∀ v l : BitVec 4, ver (verIhlByte v l) = v ∧ ihlw (verIhlByte v l) = l) ∧
  (∀ (f : BitVec 3) (o : BitVec 13),
    flg (flagsFoffHalf f o) = f ∧ foff (flagsFoffHalf f o) = o)

/-- R101 to R104: code, result in `R` and frame of the four operations, on every operand. -/
def Obligations.BitfieldUnpackerResults : Prop :=
  encode .ver = [0x10] ∧ encode .ihl = [0x11] ∧ encode .flg = [0x12] ∧ encode .foff = [0x13] ∧
  ∀ s : State,
    exec .ver s = .next { s with r := BitVec.ofNat 16 (s.a.toNat % 256 / 16), status := 0 } ∧
    exec .ihl s = .next { s with r := BitVec.ofNat 16 (s.a.toNat % 16), status := 0 } ∧
    exec .flg s = .next { s with r := BitVec.ofNat 16 (s.a.toNat / 8192), status := 0 } ∧
    exec .foff s = .next { s with r := BitVec.ofNat 16 (s.a.toNat % 8192), status := 0 }

/-- R67, R110: the fields of a type byte, how they make it up, and which bytes are single-byte types
(16 of the 256). -/
def Obligations.TypeByteFieldsAndSingleByteTypes : Prop :=
  (∀ t : Byte, (copied t).toNat = t.toNat / 128 ∧ (cls t).toNat = t.toNat / 32 % 4 ∧
    (number t).toNat = t.toNat % 32 ∧ typeByte (copied t) (cls t) (number t) = t ∧
    (single t = true ↔ t.toNat % 32 = 0 ∨ t.toNat % 32 = 1) ∧ (isEOL t = true ↔ t.toNat % 32 = 0)) ∧
  ((List.range 256).filter fun n => single (BitVec.ofNat 8 n)).length = 16

/-- R111 to R113: code, result in `R` and frame of the three classifiers, on every operand. -/
def Obligations.OptionClassifierResults : Prop :=
  encode .ocpy = [0x20] ∧ encode .ocls = [0x21] ∧ encode .onum = [0x22] ∧
  ∀ s : State,
    exec .ocpy s = .next { s with r := BitVec.ofNat 16 (s.a.toNat % 256 / 128), status := 0 } ∧
    exec .ocls s = .next { s with r := BitVec.ofNat 16 (s.a.toNat % 128 / 32), status := 0 } ∧
    exec .onum s = .next { s with r := BitVec.ofNat 16 (s.a.toNat % 32), status := 0 }

/-! ### Option codec -/

/-- R115 to R117: `OPTENC` completes exactly on encodable options, with the option's bytes at the start
of `WIRE` and their count in `wlen` and `R`; it refuses any other option, changing `STATUS` only. -/
def Obligations.OptencSerializesOrRefuses : Prop :=
  encode .optenc = [0x28] ∧
  ∀ s : State,
    (Encodable s.o → exec .optenc s = .next
      { s with
        wire := s.wire.write 0 (optBytes s.o)
        wlen := if s.o.typ.toNat % 32 ≤ 1 then 1 else s.o.len.toNat
        r := if s.o.typ.toNat % 32 ≤ 1 then 1 else BitVec.ofNat 16 s.o.len.toNat
        status := 0 }) ∧
    (¬ Encodable s.o → exec .optenc s = .next { s with status := 4 })

/-- R117: the bytes `OPTENC` stores, each by its address, and no other byte of either buffer. -/
def Obligations.OptencStoresItsBytesOnly : Prop :=
  ∀ s t : State, exec .optenc s = .next t → t.status = 0 →
    t.wire.byte 0 = s.o.typ ∧
    (1 < t.wlen → t.wire.byte 1 = s.o.len) ∧
    (∀ a, 2 ≤ a → a < t.wlen → t.wire.byte a = s.o.val.byte (a - 2)) ∧
    (∀ a, t.wlen ≤ a → t.wire.byte a = s.wire.byte a) ∧
    (∀ a, t.pay.byte a = s.pay.byte a)

/-- R118 to R121: `OPTDEC` on every cursor and window: beyond the bytes, at their end, a single-byte
option, a TLV option that fits, a truncated one. -/
def Obligations.OptdecParsesAtCursor : Prop :=
  encode .optdec = [0x29] ∧
  ∀ s : State,
    (s.wlen < s.a.toNat → exec .optdec s = .next { s with status := 4 }) ∧
    (s.a.toNat = s.wlen → exec .optdec s = .next { s with r := 0, status := 0 }) ∧
    (s.a.toNat < s.wlen → IsSingle (s.wire.byte s.a.toNat) →
      SingleStored .optdec (s.wire.byte s.a.toNat).toNat s) ∧
    (s.a.toNat < s.wlen → ¬ IsSingle (s.wire.byte s.a.toNat) → TlvFits s →
      TlvStored .optdec (s.wire.byte s.a.toNat).toNat s) ∧
    (s.a.toNat < s.wlen → ¬ IsSingle (s.wire.byte s.a.toNat) → ¬ TlvFits s →
      exec .optdec s = .next { s with status := 2 })

/-- R70, R118, and the model's reading of the `OPTTYPE` rows (log 4): `OPTDEC` with a byte at the cursor
does what the row of that type byte does. -/
def Obligations.OptdecRunsTheTypeByteRow : Prop :=
  ∀ s : State, s.a.toNat < s.wlen →
    exec .optdec s = exec (decodeOptType (s.wire.byte s.a.toNat)) s

/-- R28, R70, R121 (log 4): when the host starts `OPTDEC` with a byte at the cursor, the step is the
row of that type byte, run on the state with the event taken and the code in `OP`. -/
def Obligations.StepOfOptdecRunsTheTypeByteRow : Prop :=
  ∀ (s : State) (rest : List HostEvent) (i : Instr),
    s.host = .write .op 0x29 :: rest → s.a.toNat < s.wlen →
    decode .optType [s.wire.byte s.a.toNat] = .ok (i, []) →
    step s = exec i { s with host := rest, op := 0x29 }

/-- R68, R118, R120 (log 4): the single-byte rows complete on every state. -/
def Obligations.SingleByteRowsComplete : Prop :=
  ∀ (s : State) (c : BitVec 1) (k : BitVec 2),
    SingleStored (.optEol c k) (c.toNat * 128 + k.toNat * 32) s ∧
    SingleStored (.optNop c k) (c.toNat * 128 + k.toNat * 32 + 1) s

/-- R69, R118, R119 (log 4): each of the four TLV rows completes when the option fits in the window, and
is a truncated option otherwise. -/
def Obligations.TlvRowsCompleteOrTruncated : Prop :=
  ∀ (s : State) (c : BitVec 1) (k : BitVec 2) (n4 : BitVec 4) (n3 : BitVec 3) (n2 : BitVec 2)
    (n1 : BitVec 1),
    (TlvFits s →
      TlvStored (.optTlv16 c k n4) (c.toNat * 128 + k.toNat * 32 + 16 + n4.toNat) s ∧
      TlvStored (.optTlv8 c k n3) (c.toNat * 128 + k.toNat * 32 + 8 + n3.toNat) s ∧
      TlvStored (.optTlv4 c k n2) (c.toNat * 128 + k.toNat * 32 + 4 + n2.toNat) s ∧
      TlvStored (.optTlv2 c k n1) (c.toNat * 128 + k.toNat * 32 + 2 + n1.toNat) s) ∧
    (¬ TlvFits s →
      exec (.optTlv16 c k n4) s = .next { s with status := 2 } ∧
      exec (.optTlv8 c k n3) s = .next { s with status := 2 } ∧
      exec (.optTlv4 c k n2) s = .next { s with status := 2 } ∧
      exec (.optTlv2 c k n1) s = .next { s with status := 2 })

/-- R114, R118: the round trips of one option, whatever follows it in the window (the spec derives them
in R122: "Round trip of one option [derived: from rules R114 and R118]"). -/
def Obligations.OneOptionRoundTrips : Prop :=
  (∀ (o : OptVal) (rest : List Byte), ¬ IsSingle o.typ → 2 ≤ o.len.toNat →
    o.len.toNat - 2 ≤ o.val.length →
    ∃ b, optEncode o = .ok b ∧
      optDecode (b ++ rest) =
        .ok (some { o with val := o.val.take (o.len.toNat - 2) }, o.len.toNat) ∧
      (({ o with val := o.val.take (o.len.toNat - 2) } : OptVal) = o ↔
        o.val.length = o.len.toNat - 2)) ∧
  (∀ (o : OptVal) (rest : List Byte), IsSingle o.typ →
    ∃ b, optEncode o = .ok b ∧
      optDecode (b ++ rest) = .ok (some { typ := o.typ, len := 0, val := [] }, 1)) ∧
  (∀ (bs : List Byte) (d : Option OptVal) (n : Nat), bs ≠ [] → optDecode bs = .ok (d, n) →
    ∃ o, d = some o ∧ optEncode o = .ok (bs.take n))

/-! ### Header and options engine: building and encoding -/

/-- R131: `PKTNEW` completes with the default fields and an empty option list, addresses and everything
else kept. -/
def Obligations.PktnewLoadsDefaults : Prop :=
  encode .pktnew = [0x30] ∧
  ∀ s : State, s.plen ≤ 65515 →
    exec .pktnew s = .next
      { s with
        pkt :=
          { ver := 4, ihl := 5, tos := 0, tlen := BitVec.ofNat 16 (20 + s.plen), id := 0, flags := 0,
            foff := 0, ttl := 64, proto := 6, cksum := 0, src := s.pkt.src, dst := s.pkt.dst }
        nopt := 0
        status := 0 } ∧
    (BitVec.ofNat 16 (20 + s.plen)).toNat = 20 + s.plen

/-- R133: `WITHOPT` appends `O` whole, leaving every other entry, or refuses when the list is full. That
the entry's value buffer is `O`'s at or above `vlen` too is the model's choice (DESIGN CHOICE, log 12). -/
def Obligations.WithoptAppendsOrRefuses : Prop :=
  encode .withopt = [0x31] ∧
  ∀ s : State, s.nopt ≤ 40 →
    (s.nopt = 40 → exec .withopt s = .next { s with status := 4 }) ∧
    (s.nopt < 40 → ∃ opts' : Vector OptReg 40,
      exec .withopt s = .next { s with opts := opts', nopt := s.nopt + 1, status := 0 } ∧
      opts'[s.nopt]? = some s.o ∧ ∀ k, k ≠ s.nopt → opts'[k]? = s.opts[k]?)

/-- R141: what padding adds, by the remainder of the length, that the result is a multiple of 4, and that
`HDRENC` does not put it into `OPTS`. -/
def Obligations.PaddingByRemainder : Prop :=
  ∀ ob : List Byte,
    (ob.length % 4 = 0 → pad ob = ob) ∧
    (ob.length % 4 = 1 → pad ob = ob ++ [0x01, 0x01, 0x00]) ∧
    (ob.length % 4 = 2 → pad ob = ob ++ [0x01, 0x00]) ∧
    (ob.length % 4 = 3 → pad ob = ob ++ [0x00]) ∧
    (pad ob).length % 4 = 0 ∧
    ∀ s t : State, exec .hdrenc s = .next t → t.opts = s.opts ∧ t.nopt = s.nopt

/-- R140, R142, R143: `HDRENC` completes exactly on encodable Packets, with header, padded options and
payload at the start of `WIRE` and the three recomputed registers; it refuses any other Packet, changing
`STATUS` only. -/
def Obligations.HdrencSerializesOrRefuses : Prop :=
  encode .hdrenc = [0x38] ∧
  ∀ s : State,
    (EncodablePacket s →
      let ihl := 5 + (region s).length / 4
      let tlen := 20 + (region s).length + s.plen
      let ck := checksumOf (fun i => (headerBytes s.pkt ihl tlen 0 ++ region s).getD i 0)
        (20 + (region s).length)
      exec .hdrenc s = .next
        { s with
          wire := s.wire.write 0 (headerBytes s.pkt ihl tlen ck ++ region s ++ s.pay.read 0 s.plen)
          wlen := tlen
          pkt :=
            { s.pkt with
              ihl := BitVec.ofNat 4 ihl
              tlen := BitVec.ofNat 16 tlen
              cksum := BitVec.ofNat 16 ck }
          status := 0 }) ∧
    (¬ EncodablePacket s → exec .hdrenc s = .next { s with status := 4 })

/-- R46, R60, R143: where `HDRENC` puts options and payload, byte by byte, and that no byte beyond the
datagram and no byte of `PAY` changes. -/
def Obligations.HdrencStoresItsDatagramOnly : Prop :=
  ∀ s t : State, exec .hdrenc s = .next t → t.status = 0 →
    (∀ i < (region s).length, t.wire.byte (20 + i) = (region s).getD i 0) ∧
    (∀ i < s.plen, t.wire.byte (20 + (region s).length + i) = s.pay.byte i) ∧
    t.wlen = 20 + (region s).length + s.plen ∧
    (∀ a, t.wlen ≤ a → t.wire.byte a = s.wire.byte a) ∧
    (∀ a, t.pay.byte a = s.pay.byte a)

/-- R140 to R142: padding, header-length and checksum invariants of every successful encoding (listed in
R144, whose last sentence the spec derives: "[derived: from rules R140 to R142]"). -/
def Obligations.EncodedPacketInvariants : Prop :=
  ∀ s t : State, exec .hdrenc s = .next t → t.status = 0 →
    5 ≤ t.pkt.ihl.toNat ∧ t.pkt.ihl.toNat ≤ 15 ∧ wireIhl t = t.pkt.ihl.toNat ∧
    t.wlen = t.pkt.tlen.toNat ∧
    t.pkt.tlen.toNat = (t.wire.byte 2).toNat * 256 + (t.wire.byte 3).toNat ∧
    t.pkt.ihl.toNat * 4 ≤ t.pkt.tlen.toNat ∧
    wireIhl t * 4 + t.plen = t.wlen ∧ (t.wlen - t.plen - 20) % 4 = 0 ∧
    foldedSum (sumOfWords t.wire.byte (wireIhl t * 4)) = 0xFFFF ∧
    cksum (t.wire.read 0 (wireIhl t * 4)) = 0x0000

/-- R144, R164, R165: `CKSUM` over the header that `HDRENC` has just written gives 0. -/
def Obligations.CksumOfEncodedHeaderIsZero : Prop :=
  ∀ s t : State, exec .hdrenc s = .next t → t.status = 0 →
    exec .cksum { t with a := BitVec.ofNat 16 (t.pkt.ihl.toNat * 4) } =
      .next { t with a := BitVec.ofNat 16 (t.pkt.ihl.toNat * 4), r := 0x0000, status := 0 }

/-- R22, R143, R166: what the host wrote to `PKT.ihl`, `PKT.tlen` and `PKT.cksum` is not read and does
not stay when `HDRENC` succeeds. -/
def Obligations.HdrencIgnoresRecomputedRegisters : Prop :=
  ∀ (s t : State) (x : BitVec 4) (y z : Half), exec .hdrenc s = .next t → t.status = 0 →
    exec .hdrenc { s with pkt := { s.pkt with ihl := x, tlen := y, cksum := z } } = .next t

/-- R143: "Running `HDRENC` twice gives the same bytes": the second run changes nothing at all. -/
def Obligations.HdrencTwiceChangesNothingMore : Prop :=
  ∀ s t : State, exec .hdrenc s = .next t → exec .hdrenc t = .next t

/-- R166: the checksum covers header and options only, never the payload bytes. -/
def Obligations.ChecksumIndependentOfPayloadBytes : Prop :=
  ∀ (s t t' : State) (pay' : Memory), exec .hdrenc s = .next t →
    exec .hdrenc { s with pay := pay' } = .next t' → t'.status = t.status ∧ t'.pkt = t.pkt

/-! ### Checksum engine -/

/-- R160, R162: the checksum of any byte sequence by the closed law of the one's-complement sum, which
the spec derives in R161 ("with `T` the plain integer sum of the words"). -/
def Obligations.ChecksumFollowsClosedLaw : Prop :=
  ∀ bs : List Byte, (cksum bs).toNat = checksumOf (fun i => bs.getD i 0) bs.length

/-- R140, R160 (the spec derives it in R165): a region of even length whose checksum, computed with zeros in the field, is put in the field
then sums to 0xFFFF, and its checksum is 0. -/
def Obligations.ChecksumInFieldVerifies : Prop :=
  ∀ (front back : List Byte), front.length = 10 → back.length % 2 = 0 →
    onesSum (front ++ be16 (cksum (front ++ [0x00, 0x00] ++ back)) ++ back) = 0xFFFF ∧
    cksum (front ++ be16 (cksum (front ++ [0x00, 0x00] ++ back)) ++ back) = 0x0000

/-- R164: `CKSUM` sums the first `A` bytes as they are, or refuses when they go beyond `wlen`. -/
def Obligations.CksumSumsRegionOrRefuses : Prop :=
  encode .cksum = [0x40] ∧
  ∀ s : State,
    (s.a.toNat ≤ s.wlen → exec .cksum s = .next
      { s with r := BitVec.ofNat 16 (checksumOf s.wire.byte s.a.toNat), status := 0 }) ∧
    (s.wlen < s.a.toNat → exec .cksum s = .next { s with status := 4 })

/-! ### Header and options engine: decoding -/

/-- R146: the option loop, one turn at a time, from any cursor. -/
def Obligations.OptionLoopTurn : Prop :=
  (∀ (w : List Byte) (hl : Nat), parseOptions w hl = parseFrom w hl 20) ∧
  ∀ (w : List Byte) (hl c : Nat), hl ≤ w.length →
    (hl ≤ c → parseFrom w hl c = .ok []) ∧
    (c < hl →
      let t : Byte := w.getD c 0
      let len : Byte := w.getD (c + 1) 0
      (t.toNat % 32 = 0 → parseFrom w hl c = .ok [{ typ := t, len := 0, val := [] }]) ∧
      (t.toNat % 32 = 1 → parseFrom w hl c =
        consOption { typ := t, len := 0, val := [] } (parseFrom w hl (c + 1))) ∧
      (1 < t.toNat % 32 → c + 1 = w.length ∨ len.toNat < 2 ∨ w.length < c + len.toNat →
        parseFrom w hl c = .error .truncatedOption) ∧
      (1 < t.toNat % 32 → c + 1 < w.length → 2 ≤ len.toNat → c + len.toNat ≤ w.length →
        hl < c + len.toNat → parseFrom w hl c = .error .malformedOptionsRegion) ∧
      (1 < t.toNat % 32 → c + 1 < w.length → 2 ≤ len.toNat → c + len.toNat ≤ hl →
        parseFrom w hl c =
          consOption { typ := t, len := len, val := (w.drop (c + 2)).take (len.toNat - 2) }
            (parseFrom w hl (c + len.toNat))))

/-- R146: the loop gives at most one option per byte of the region, so at most 40 for a header. -/
def Obligations.ParsedOptionsFitTheList : Prop :=
  ∀ (w : List Byte) (hl : Nat) (os : List OptVal),
    parseOptions w hl = .ok os → os.length ≤ hl - 20

/-- R145, R147, R148: `HDRDEC` completes on a datagram whose header is whole and whose options parse:
fields from their offsets, options in order, payload to the physical end, everything else kept. -/
def Obligations.HdrdecDecodesDatagram : Prop :=
  encode .hdrdec = [0x39] ∧
  ∀ (s : State) (os : List OptVal), 20 ≤ s.wlen → 5 ≤ wireIhl s → wireIhl s * 4 ≤ s.wlen →
    (wireIhl s = 5 ∧ os = [] ∨ parseOptions (s.wire.read 0 s.wlen) (wireIhl s * 4) = .ok os) →
    ∃ (p : Pkt) (opts' : Vector OptReg 40) (pay' : Memory),
      exec .hdrdec s = .next
        { s with
          pkt := p
          opts := opts'
          nopt := os.length
          pay := pay'
          plen := s.wlen - wireIhl s * 4
          status := 0 } ∧
      p.ver.toNat = (s.wire.byte 0).toNat / 16 ∧ p.ihl.toNat = wireIhl s ∧
      p.tos = s.wire.byte 1 ∧
      p.tlen.toNat = (s.wire.byte 2).toNat * 256 + (s.wire.byte 3).toNat ∧
      p.id.toNat = (s.wire.byte 4).toNat * 256 + (s.wire.byte 5).toNat ∧
      p.flags.toNat = (s.wire.byte 6).toNat / 32 ∧
      p.foff.toNat = (s.wire.byte 6).toNat % 32 * 256 + (s.wire.byte 7).toNat ∧
      p.ttl = s.wire.byte 8 ∧ p.proto = s.wire.byte 9 ∧
      p.cksum.toNat = (s.wire.byte 10).toNat * 256 + (s.wire.byte 11).toNat ∧
      (∀ j : Fin 4, p.src[j] = s.wire.byte (12 + j)) ∧
      (∀ j : Fin 4, p.dst[j] = s.wire.byte (16 + j)) ∧
      (∀ k < os.length, (opts'[k]?).map OptReg.value = os[k]?) ∧
      (∀ k, os.length ≤ k → opts'[k]? = s.opts[k]?) ∧
      (∀ j < s.wlen - wireIhl s * 4, pay'.byte j = s.wire.byte (wireIhl s * 4 + j)) ∧
      (∀ j, s.wlen - wireIhl s * 4 ≤ j → pay'.byte j = s.pay.byte j)

/-- R148, R171 to R173, R177: the errors of `HDRDEC` in the order they are tested, each changing
`STATUS` only. -/
def Obligations.HdrdecErrorsInOrder : Prop :=
  ∀ s : State,
    (s.wlen < 20 → exec .hdrdec s = .next { s with status := 1 }) ∧
    (20 ≤ s.wlen → wireIhl s < 5 → exec .hdrdec s = .next { s with status := 3 }) ∧
    (20 ≤ s.wlen → 5 ≤ wireIhl s → s.wlen < wireIhl s * 4 →
      exec .hdrdec s = .next { s with status := 1 }) ∧
    (20 ≤ s.wlen → 5 ≤ wireIhl s → wireIhl s * 4 ≤ s.wlen →
      parseOptions (s.wire.read 0 s.wlen) (wireIhl s * 4) = .error .truncatedOption →
      exec .hdrdec s = .next { s with status := 2 }) ∧
    (20 ≤ s.wlen → 5 ≤ wireIhl s → wireIhl s * 4 ≤ s.wlen →
      parseOptions (s.wire.read 0 s.wlen) (wireIhl s * 4) = .error .malformedOptionsRegion →
      exec .hdrdec s = .next { s with status := 3 })

/-- R78, R149: version, type-of-service, total length, identification, flags, offset, time-to-live,
protocol, checksum and addresses decide nothing: two inputs that differ only there end with the same
code, the same options and the same payload. -/
def Obligations.HdrdecAcceptsAnyUncheckedField : Prop :=
  ∀ (s : State) (wire' : Memory), (wire'.byte 0).toNat % 16 = wireIhl s →
    (∀ a, 20 ≤ a → wire'.byte a = s.wire.byte a) →
    ∃ t t', exec .hdrdec s = .next t ∧ exec .hdrdec { s with wire := wire' } = .next t' ∧
      t'.status = t.status ∧ t'.opts = t.opts ∧ t'.nopt = t.nopt ∧ t'.pay = t.pay ∧ t'.plen = t.plen

/-- R140, R145, R146 (the spec derives it in R150): decoding what `HDRENC` has just written succeeds and gives back all fields (the three
recomputed ones included), the payload, and the options as the wire carries them: each as R122 says,
then the padding options, up to the first option of number 0. -/
def Obligations.EncodeThenDecodeRoundTrips : Prop :=
  ∀ s t : State, exec .hdrenc s = .next t → t.status = 0 →
    ∃ u, exec .hdrdec t = .next u ∧ u.status = 0 ∧
      u.pkt = t.pkt ∧
      u.pkt.ver = s.pkt.ver ∧ u.pkt.tos = s.pkt.tos ∧ u.pkt.id = s.pkt.id ∧
      u.pkt.flags = s.pkt.flags ∧ u.pkt.foff = s.pkt.foff ∧ u.pkt.ttl = s.pkt.ttl ∧
      u.pkt.proto = s.pkt.proto ∧ u.pkt.src = s.pkt.src ∧ u.pkt.dst = s.pkt.dst ∧
      u.plen = s.plen ∧ (∀ i < s.plen, u.pay.byte i = s.pay.byte i) ∧
      optList u = uptoEOL
        (((listed s).map fun o => asDecoded o.value) ++ paddingOptions (rawRegion s).length) ∧
      ((∀ o ∈ listed s, o.typ.toNat % 32 ≠ 0) → optList u =
        ((listed s).map fun o => asDecoded o.value) ++ paddingOptions (rawRegion s).length)

/-! ### All operations -/

/-- R170, R179: every instruction ends with a next state and one of its own codes in `STATUS`. R170 names
the 14 operations only; that the `OPTTYPE` rows end so, and with code 2 where they are truncated, is the
model's reading of them as the option decoder of `OPTDEC` (DEDUCED, log 4). -/
def Obligations.EveryOperationEndsWithItsOwnCode : Prop :=
  ∀ (i : Instr) (s : State), ∃ t, exec i s = .next t ∧
    (t.status = 0 ∨
      t.status = 1 ∧ i = .hdrdec ∨
      t.status = 2 ∧ (i = .optdec ∨ i = .hdrdec ∨ IsElement i) ∨
      t.status = 3 ∧ i = .hdrdec ∨
      t.status = 4 ∧ (i = .optenc ∨ i = .optdec ∨ i = .withopt ∨ i = .hdrenc ∨ i = .cksum))

/-- R180: an operation that ends with a code other than `OK` has written `STATUS` and nothing else,
whichever value of `OP` started it (the illegal ones included), and whichever instruction it is. For the
`OPTTYPE` rows this is the model's reading (DEDUCED, log 4). -/
def Obligations.FailedOperationChangesStatusOnly : Prop :=
  (∀ s t : State, startOp s = .next t → t.status ≠ 0 → t = { s with status := t.status }) ∧
  ∀ (i : Instr) (s t : State), exec i s = .next t → t.status ≠ 0 → t = { s with status := t.status }

/-- R27, R28, R31: no operation writes `A` or `OP` or the host's events, and the four operations without
a scalar result leave `R`. For the `OPTTYPE` rows this is the model's reading (DEDUCED, log 4), and that
the host's events stay concerns the model's own field (log 1). -/
def Obligations.OperationsLeaveOperandsAlone : Prop :=
  ∀ (i : Instr) (s t : State), exec i s = .next t →
    t.a = s.a ∧ t.op = s.op ∧ t.host = s.host ∧
    (i = .pktnew ∨ i = .withopt ∨ i = .hdrenc ∨ i = .hdrdec → t.r = s.r)

/-- `10_state.md` section 11: which operation writes which part of the state; every other part is
unchanged. The section's table names the 14 operations only; that the `OPTTYPE` rows write `O` and no
`WIRE`, `PAY`, `OPTS`, `nopt` or `PKT` is the model's reading of them (DEDUCED, log 4). -/
def Obligations.OperationsWriteOnlyTheirState : Prop :=
  ∀ (i : Instr) (s t : State), exec i s = .next t →
    (i ≠ .optenc → i ≠ .hdrenc → t.wlen = s.wlen ∧ ∀ a, t.wire.byte a = s.wire.byte a) ∧
    (i ≠ .hdrdec → t.plen = s.plen ∧ ∀ a, t.pay.byte a = s.pay.byte a) ∧
    (i ≠ .optdec → ¬ IsElement i → t.o = s.o) ∧
    (i ≠ .withopt → i ≠ .hdrdec → t.opts = s.opts) ∧
    (i ≠ .pktnew → i ≠ .withopt → i ≠ .hdrdec → t.nopt = s.nopt) ∧
    (i ≠ .pktnew → i ≠ .hdrenc → i ≠ .hdrdec → t.pkt = s.pkt) ∧
    (i = .hdrenc →
      t.pkt = { s.pkt with ihl := t.pkt.ihl, tlen := t.pkt.tlen, cksum := t.pkt.cksum })

/-! ### Invariant -/

/-- R191: the reset state is legal. -/
def Obligations.ResetStateIsLegal : Prop := State.reset.Legal

/-- R22 to R28: from every legal state, whatever the host's next event, a next state is legal: every
length within its maximum, every buffer in canonical form and within its capacity, `STATUS` one of the
six codes. -/
def Obligations.StepKeepsLegalStates : Prop :=
  ∀ s t : State, s.Legal → step s = .next t → t.Legal
end

