-- ==== Sys2Proof/Laws/Checksum.lean ====
section
/-! SUPPORT. The arithmetic of the checksum: the folding loop reaches the one's-complement sum, and the
word sum of a concatenation (`43_checksum.md` R160, R161). -/

namespace Sys2Proof.Machine

/-- The folding loop by the closed law of R161, when the fuel is enough. -/
theorem foldCarry_eq (fuel s : Nat) (h : s ≤ 65535 * (fuel + 1)) :
    foldCarry fuel s = if s = 0 then 0 else (s - 1) % 65535 + 1 := by
  induction fuel generalizing s with
  | zero => unfold foldCarry; split <;> omega
  | succ n ih =>
    unfold foldCarry
    by_cases hs : s > 0xFFFF
    · rw [if_pos hs, ih _ (by omega)]
      have hd : s = 65536 * (s / 65536) + s % 65536 := by omega
      rw [if_neg (by omega), if_neg (by omega)]
      have hm : s - 1 = (s % 65536 + s / 65536 - 1) + 65535 * (s / 65536) := by omega
      rw [hm, Nat.add_mul_mod_self_left]
    · rw [if_neg hs]
      split <;> omega

/-- Each word of a sum is at most 0xFFFF. -/
theorem wordSum_le (bs : List Byte) : wordSum bs ≤ 65535 * bs.length := by
  induction bs using wordSum.induct with
  | case1 => simp [wordSum]
  | case2 hi => have := hi.isLt; simp only [wordSum, List.length_cons, List.length_nil]; omega
  | case3 hi lo rest ih =>
    have := hi.isLt
    have := lo.isLt
    simp only [wordSum, List.length_cons]; omega

/-- The folded sum is a 16-bit number. -/
theorem onesSum_le (bs : List Byte) : onesSum bs ≤ 0xFFFF := by
  rw [onesSum, foldCarry_eq _ _ (by have := wordSum_le bs; omega)]
  split <;> omega

/-- The checksum as a number. -/
theorem cksum_toNat (bs : List Byte) : (cksum bs).toNat = 0xFFFF - onesSum bs := by
  rw [cksum, BitVec.toNat_ofNat]; omega

/-- Words do not straddle a concatenation at an even offset. -/
theorem wordSum_append (xs ys : List Byte) (h : xs.length % 2 = 0) :
    wordSum (xs ++ ys) = wordSum xs + wordSum ys := by
  induction xs using wordSum.induct with
  | case1 => simp [wordSum]
  | case2 hi => simp at h
  | case3 hi lo rest ih =>
    simp only [List.length_cons] at h
    simp only [List.cons_append, wordSum]
    rw [ih (by omega)]; omega

end Sys2Proof.Machine
end

