-- ==== Sys2Proof/Laws/Memory.lean ====
section
/-! SUPPORT. The laws of the byte memories: reading after writing, and the canonical form kept. -/

namespace Sys2Proof.Machine

@[simp] theorem byte_nil (a : Nat) : Memory.byte [] a = Config.unwrittenByte := rfl

theorem byte_cons (k : Nat) (b : Byte) (m : Memory) (a : Nat) :
    Memory.byte ((k, b) :: m) a = if k = a then b else m.byte a := rfl

/-- A byte whose address is not listed reads as unwritten. -/
theorem byte_of_not_listed (m : Memory) (a : Nat) (h : ∀ c ∈ m, c.1 ≠ a) :
    m.byte a = Config.unwrittenByte := by
  induction m with
  | nil => rfl
  | cons c m ih =>
    obtain ⟨k, b⟩ := c
    rw [byte_cons, if_neg (h (k, b) (by simp))]
    exact ih fun c hc => h c (by simp [hc])

/-- In a concatenation the first part that lists the address answers. -/
theorem byte_append_of_not_listed (m m' : Memory) (a : Nat) (h : ∀ c ∈ m, c.1 ≠ a) :
    Memory.byte (m ++ m') a = m'.byte a := by
  induction m with
  | nil => rfl
  | cons c m ih =>
    obtain ⟨k, b⟩ := c
    rw [List.cons_append, byte_cons, if_neg (h (k, b) (by simp))]
    exact ih fun c hc => h c (by simp [hc])

theorem byte_append_of_not_listed_right (m m' : Memory) (a : Nat) (h : ∀ c ∈ m', c.1 ≠ a) :
    Memory.byte (m ++ m') a = m.byte a := by
  induction m with
  | nil => exact byte_of_not_listed m' a h
  | cons c m ih =>
    obtain ⟨k, b⟩ := c
    rw [List.cons_append, byte_cons, byte_cons, ih]

/-- Keeping the entries whose address satisfies a test does not change a byte that satisfies it. -/
theorem byte_filter (m : Memory) (p : Nat → Bool) (a : Nat) (h : p a = true) :
    Memory.byte (m.filter fun c => p c.1) a = m.byte a := by
  induction m with
  | nil => rfl
  | cons c m ih =>
    obtain ⟨k, b⟩ := c
    by_cases hk : k = a
    · subst hk; simp [h, byte_cons]
    · by_cases hp : p k <;> simp [hp, byte_cons, hk, ih]

/-- The addresses of a stored byte sequence. -/
theorem mem_cells {addr : Nat} {bs : List Byte} {c : Host.Cell} (h : c ∈ Memory.cells addr bs) :
    addr ≤ c.1 ∧ c.1 < addr + bs.length ∧ c.2 ≠ Config.unwrittenByte := by
  induction bs generalizing addr with
  | nil => simp [Memory.cells] at h
  | cons b bs ih =>
    unfold Memory.cells at h
    split at h
    · have := ih h
      simp only [List.length_cons]
      exact ⟨by omega, by omega, this.2.2⟩
    · rename_i hb
      rcases List.mem_cons.mp h with rfl | h
      · exact ⟨Nat.le_refl _, by simp, hb⟩
      · have := ih h
        simp only [List.length_cons]
        exact ⟨by omega, by omega, this.2.2⟩

/-- A stored byte sequence reads back. -/
theorem byte_cells (addr : Nat) (bs : List Byte) (a : Nat) (h : addr ≤ a) :
    Memory.byte (Memory.cells addr bs) a = bs.getD (a - addr) Config.unwrittenByte := by
  induction bs generalizing addr with
  | nil => simp [Memory.cells]
  | cons b bs ih =>
    by_cases ha : a = addr
    · subst ha
      unfold Memory.cells
      split
      · rename_i hb
        rw [byte_of_not_listed _ _ fun c hc => by have := mem_cells hc; omega]
        simp [hb]
      · simp [byte_cons]
    · have hlt : addr + 1 ≤ a := by omega
      have hsub : a - addr = (a - (addr + 1)) + 1 := by omega
      unfold Memory.cells
      split
      · rw [ih _ hlt, hsub]; simp
      · rw [byte_cons, if_neg (by omega), ih _ hlt, hsub]; simp

/-- `MemWrite` then a read of one byte: the written byte inside the range, the old one outside. -/
theorem byte_write (m : Memory) (addr : Nat) (bs : List Byte) (a : Nat) :
    (m.write addr bs).byte a =
      if addr ≤ a ∧ a < addr + bs.length then bs.getD (a - addr) Config.unwrittenByte
      else m.byte a := by
  unfold Memory.write
  by_cases h1 : a < addr
  · rw [if_neg (by omega), byte_append_of_not_listed_right, byte_filter m (fun x => decide (x < addr))]
    · simpa using h1
    · intro c hc
      rcases List.mem_append.mp hc with hc | hc
      · have := mem_cells hc; omega
      · have := (List.mem_filter.mp hc).2
        simp only [decide_eq_true_eq] at this; omega
  · rw [byte_append_of_not_listed _ _ _ fun c hc => by
      have := (List.mem_filter.mp hc).2
      simp only [decide_eq_true_eq] at this; omega]
    by_cases h2 : a < addr + bs.length
    · rw [if_pos ⟨by omega, h2⟩, byte_append_of_not_listed_right, byte_cells _ _ _ (by omega)]
      intro c hc
      have := (List.mem_filter.mp hc).2
      simp only [decide_eq_true_eq] at this; omega
    · rw [if_neg (by omega), byte_append_of_not_listed _ _ _ fun c hc => by
        have := mem_cells hc; omega]
      rw [byte_filter m (fun x => decide (addr + bs.length ≤ x))]
      simpa using h2

/-- A write leaves every byte outside its range alone. -/
theorem byte_write_outside (m : Memory) (addr : Nat) (bs : List Byte) (a : Nat)
    (h : a < addr ∨ addr + bs.length ≤ a) : (m.write addr bs).byte a = m.byte a := by
  rw [byte_write, if_neg (by omega)]

@[simp] theorem read_length (m : Memory) (addr n : Nat) : (m.read addr n).length = n := by
  simp [Memory.read]

theorem read_getElem? (m : Memory) (addr n i : Nat) :
    (m.read addr n)[i]? = if i < n then some (m.byte (addr + i)) else none := by
  unfold Memory.read
  by_cases h : i < n
  · simp [h]
  · simp [h]

@[simp] theorem read_getElem (m : Memory) (addr n i : Nat) (h : i < (m.read addr n).length) :
    (m.read addr n)[i] = m.byte (addr + i) := by
  have h' : i < n := by simpa using h
  have := read_getElem? m addr n i
  rw [List.getElem?_eq_getElem h, if_pos h'] at this
  exact Option.some.inj this

theorem read_getD (m : Memory) (addr n i : Nat) (d : Byte) :
    (m.read addr n).getD i d = if i < n then m.byte (addr + i) else d := by
  rw [List.getD_eq_getElem?_getD, read_getElem?]
  split <;> rfl

@[simp] theorem read_zero (m : Memory) (addr : Nat) : m.read addr 0 = [] := rfl

/-- Two byte sequences are equal when they have the same length and the same bytes. -/
theorem read_eq_iff (m : Memory) (addr n : Nat) (bs : List Byte) :
    m.read addr n = bs ↔ bs.length = n ∧ ∀ i < n, m.byte (addr + i) = bs.getD i 0 := by
  constructor
  · rintro rfl
    refine ⟨read_length m addr n, fun i hi => ?_⟩
    rw [read_getD, if_pos hi]
  · rintro ⟨hl, hb⟩
    apply List.ext_getElem? fun i => ?_
    rw [read_getElem?]
    split
    · rename_i hi
      rw [hb i hi, List.getD_eq_getElem?_getD, List.getElem?_eq_getElem (by omega)]
      rfl
    · rw [List.getElem?_eq_none (by omega)]

/-- Reading is local: equal bytes give equal reads. -/
theorem read_congr (m m' : Memory) (addr n : Nat)
    (h : ∀ a, addr ≤ a → a < addr + n → m.byte a = m'.byte a) : m.read addr n = m'.read addr n := by
  apply List.ext_getElem? fun i => ?_
  rw [read_getElem?, read_getElem?]
  split
  · rw [h (addr + i) (by omega) (by omega)]
  · rfl

/-- `MemRead` after `MemWrite` of the same range. -/
theorem read_write_same (m : Memory) (addr : Nat) (bs : List Byte) :
    (m.write addr bs).read addr bs.length = bs := by
  rw [read_eq_iff]
  refine ⟨rfl, fun i hi => ?_⟩
  rw [byte_write, if_pos ⟨by omega, by omega⟩, Nat.add_sub_cancel_left]

/-- A value buffer made from a byte sequence reads back as that sequence. -/
theorem read_cells (bs : List Byte) : (Memory.cells 0 bs).read 0 bs.length = bs := by
  rw [read_eq_iff]
  refine ⟨rfl, fun i hi => ?_⟩
  rw [byte_cells _ _ _ (by omega)]
  simp [List.getD_eq_getElem?_getD, List.getElem?_eq_getElem hi]

/-- The first bytes of a read. -/
theorem read_take (m : Memory) (addr n k : Nat) : (m.read addr n).take k = m.read addr (min k n) := by
  apply List.ext_getElem? fun i => ?_
  rw [List.getElem?_take, read_getElem?, read_getElem?]
  by_cases h1 : i < k <;> by_cases h2 : i < n <;> simp [h1, h2]

/-- The later bytes of a read. -/
theorem read_drop (m : Memory) (addr n k : Nat) :
    (m.read addr n).drop k = m.read (addr + k) (n - k) := by
  apply List.ext_getElem? fun i => ?_
  rw [List.getElem?_drop, read_getElem?, read_getElem?]
  by_cases h : k + i < n
  · rw [if_pos h, if_pos (by omega), Nat.add_assoc]
  · rw [if_neg h, if_neg (by omega)]

/-- A read of at least one byte begins with the byte at its address. -/
theorem read_succ (m : Memory) (addr n : Nat) :
    m.read addr (n + 1) = m.byte addr :: m.read (addr + 1) n := by
  simp [Memory.read, List.range'_succ]

/-- The entries of a stored sequence are in canonical form. -/
theorem cells_wf (addr : Nat) (bs : List Byte) : (Memory.cells addr bs).wf := by
  refine ⟨?_, fun c hc => (mem_cells hc).2.2⟩
  induction bs generalizing addr with
  | nil => simp [Memory.cells]
  | cons b bs ih =>
    unfold Memory.cells
    split
    · exact ih _
    · refine List.pairwise_cons.mpr ⟨fun c hc => ?_, ih _⟩
      have := mem_cells hc
      simp only; omega

/-- Every write keeps the canonical form. -/
theorem write_wf {m : Memory} (h : m.wf) (addr : Nat) (bs : List Byte) : (m.write addr bs).wf := by
  obtain ⟨hs, hd⟩ := h
  refine ⟨?_, ?_⟩
  · unfold Memory.write
    rw [List.pairwise_append, List.pairwise_append]
    refine ⟨hs.filter _, ⟨(cells_wf addr bs).1, hs.filter _, ?_⟩, ?_⟩
    · intro x hx y hy
      have h1 := mem_cells hx
      have h2 := (List.mem_filter.mp hy).2
      simp only [decide_eq_true_eq] at h2; omega
    · intro x hx y hy
      have h1 := (List.mem_filter.mp hx).2
      simp only [decide_eq_true_eq] at h1
      rcases List.mem_append.mp hy with hy | hy
      · have := mem_cells hy; omega
      · have h2 := (List.mem_filter.mp hy).2
        simp only [decide_eq_true_eq] at h2; omega
  · intro c hc
    unfold Memory.write at hc
    rcases List.mem_append.mp hc with hc | hc
    · exact hd c (List.mem_filter.mp hc).1
    · rcases List.mem_append.mp hc with hc | hc
      · exact (mem_cells hc).2.2
      · exact hd c (List.mem_filter.mp hc).1

/-- A write inside the capacity keeps every entry inside it. -/
theorem write_within {m : Memory} {cap : Nat} (h : m.within cap) (addr : Nat) (bs : List Byte)
    (hb : addr + bs.length ≤ cap) : (m.write addr bs).within cap := by
  intro c hc
  unfold Memory.write at hc
  rcases List.mem_append.mp hc with hc | hc
  · exact h c (List.mem_filter.mp hc).1
  · rcases List.mem_append.mp hc with hc | hc
    · have := mem_cells hc; omega
    · exact h c (List.mem_filter.mp hc).1

/-- The entries of a value buffer lie below its length. -/
theorem cells_within (bs : List Byte) (cap : Nat) (h : bs.length ≤ cap) :
    (Memory.cells 0 bs).within cap := by
  intro c hc
  have := mem_cells hc
  omega

/-- Writing the same bytes twice is writing them once. -/
theorem write_write_same (m : Memory) (addr : Nat) (bs : List Byte) :
    (m.write addr bs).write addr bs = m.write addr bs := by
  have hlow : (m.write addr bs).filter (fun c => decide (c.1 < addr)) =
      m.filter (fun c => decide (c.1 < addr)) := by
    unfold Memory.write
    rw [List.filter_append, List.filter_eq_self.mpr fun c hc => (List.mem_filter.mp hc).2]
    refine (List.append_right_eq_self).mpr (List.filter_eq_nil_iff.mpr fun c hc => ?_)
    rcases List.mem_append.mp hc with hc | hc
    · have := mem_cells hc
      simp only [decide_eq_true_eq]; omega
    · have := (List.mem_filter.mp hc).2
      simp only [decide_eq_true_eq] at this ⊢; omega
  have hhigh : (m.write addr bs).filter (fun c => decide (addr + bs.length ≤ c.1)) =
      m.filter (fun c => decide (addr + bs.length ≤ c.1)) := by
    unfold Memory.write
    rw [← List.append_assoc, List.filter_append,
      List.filter_eq_self (l := m.filter _) |>.mpr fun c hc => (List.mem_filter.mp hc).2]
    refine (List.append_left_eq_self).mpr (List.filter_eq_nil_iff.mpr fun c hc => ?_)
    rcases List.mem_append.mp hc with hc | hc
    · have := (List.mem_filter.mp hc).2
      simp only [decide_eq_true_eq] at this ⊢; omega
    · have := mem_cells hc
      simp only [decide_eq_true_eq]; omega
  rw [Memory.write, hlow, hhigh]
  rfl

/-- Two canonical memories with the same bytes are the same list. -/
theorem wf_ext {m m' : Memory} (h : m.wf) (h' : m'.wf) (hb : ∀ a, m.byte a = m'.byte a) : m = m' := by
  induction m generalizing m' with
  | nil =>
    cases m' with
    | nil => rfl
    | cons c m' =>
      have := hb c.1
      rw [byte_nil, byte_cons, if_pos rfl] at this
      exact absurd this.symm (h'.2 c (by simp))
  | cons c m ih =>
    cases m' with
    | nil =>
      have := hb c.1
      rw [byte_nil, byte_cons, if_pos rfl] at this
      exact absurd this (h.2 c (by simp))
    | cons c' m' =>
      obtain ⟨k, b⟩ := c
      obtain ⟨k', b'⟩ := c'
      have hm := List.pairwise_cons.mp h.1
      have hm' := List.pairwise_cons.mp h'.1
      have hk : k = k' := by
        rcases Nat.lt_trichotomy k k' with hlt | heq | hgt
        · have := hb k
          rw [byte_cons, if_pos rfl, byte_cons, if_neg (by omega), byte_of_not_listed m' k
            fun c hc => by have := hm'.1 c hc; simp only at this; omega] at this
          exact absurd this (h.2 (k, b) (by simp))
        · exact heq
        · have := hb k'
          rw [byte_cons, if_neg (by omega), byte_cons, if_pos rfl, byte_of_not_listed m k'
            fun c hc => by have := hm.1 c hc; simp only at this; omega] at this
          exact absurd this.symm (h'.2 (k', b') (by simp))
      subst hk
      have hbb : b = b' := by
        have := hb k
        rwa [byte_cons, if_pos rfl, byte_cons, if_pos rfl] at this
      subst hbb
      rw [ih (m' := m') ⟨hm.2, fun c hc => h.2 c (by simp [hc])⟩
        ⟨hm'.2, fun c hc => h'.2 c (by simp [hc])⟩ fun a => ?_]
      by_cases ha : k = a
      · subst ha
        rw [byte_of_not_listed m k fun c hc => by have := hm.1 c hc; simp only at this; omega,
          byte_of_not_listed m' k fun c hc => by have := hm'.1 c hc; simp only at this; omega]
      · have := hb a
        rwa [byte_cons, if_neg ha, byte_cons, if_neg ha] at this

end Sys2Proof.Machine
end

