-- ==== Sys2Proof/Laws/Operands.lean ====
section
/-! SUPPORT. The operand forms as numbers: fields are quotients and remainders, packed values are sums
(`40_bitfield_unpacker.md` R100, `41_option_codec.md` R110, `30_encoding.md` R62 to R67). -/

namespace Sys2Proof.Machine

/-- A field of a bit vector is a quotient and a remainder of its number. -/
theorem extract_toNat {w : Nat} (x : BitVec w) (lo len : Nat) :
    (x.extractLsb' lo len).toNat = x.toNat / 2 ^ lo % 2 ^ len := by
  rw [BitVec.extractLsb'_toNat, Nat.shiftRight_eq_div_pow]

/-- `a ∥ b` as a number. -/
theorem append_toNat {v w : Nat} (x : BitVec v) (y : BitVec w) :
    (x ++ y).toNat = x.toNat * 2 ^ w + y.toNat := by
  rw [BitVec.toNat_append, ← Nat.shiftLeft_add_eq_or_of_lt y.isLt, Nat.shiftLeft_eq]

@[simp] theorem ver_toNat (b : Byte) : (ver b).toNat = b.toNat / 16 := by
  have := b.isLt
  rw [ver, extract_toNat]; omega

@[simp] theorem ihlw_toNat (b : Byte) : (ihlw b).toNat = b.toNat % 16 := by
  rw [ihlw, extract_toNat]; omega

@[simp] theorem flg_toNat (h : Half) : (flg h).toNat = h.toNat / 8192 := by
  have := h.isLt
  rw [flg, extract_toNat]; omega

@[simp] theorem foff_toNat (h : Half) : (foff h).toNat = h.toNat % 8192 := by
  rw [foff, extract_toNat]; omega

@[simp] theorem copied_toNat (t : Byte) : (copied t).toNat = t.toNat / 128 := by
  have := t.isLt
  rw [copied, extract_toNat]; omega

@[simp] theorem cls_toNat (t : Byte) : (cls t).toNat = t.toNat / 32 % 4 := by
  rw [cls, extract_toNat]; omega

@[simp] theorem number_toNat (t : Byte) : (number t).toNat = t.toNat % 32 := by
  rw [number, extract_toNat]; omega

@[simp] theorem operandByte_toNat (s : State) : (operandByte s).toNat = s.a.toNat % 256 := by
  rw [operandByte, extract_toNat]; omega

@[simp] theorem verIhlByte_toNat (v l : BitVec 4) :
    (verIhlByte v l).toNat = v.toNat * 16 + l.toNat := append_toNat v l

@[simp] theorem flagsFoffHalf_toNat (f : BitVec 3) (o : BitVec 13) :
    (flagsFoffHalf f o).toNat = f.toNat * 8192 + o.toNat := append_toNat f o

@[simp] theorem typeByte_toNat (c : BitVec 1) (k : BitVec 2) (n : BitVec 5) :
    (typeByte c k n).toNat = c.toNat * 128 + k.toNat * 32 + n.toNat := by
  have h1 := append_toNat (c ++ k) n
  have h2 := append_toNat c k
  rw [h2] at h1
  exact h1.trans (by omega)

/-- The single-byte types are those of number 0 and 1 (R68, R110). -/
theorem single_iff (t : Byte) : single t = true ↔ t.toNat % 32 ≤ 1 := by
  rw [single, Bool.or_eq_true, decide_eq_true_eq, decide_eq_true_eq, ← BitVec.toNat_inj,
    ← BitVec.toNat_inj, number_toNat]
  change t.toNat % 32 = 0 ∨ t.toNat % 32 = 1 ↔ _
  omega

theorem isEOL_iff (t : Byte) : isEOL t = true ↔ t.toNat % 32 = 0 := by
  rw [isEOL, decide_eq_true_eq, ← BitVec.toNat_inj, number_toNat]
  rfl

theorem single_eq_false_iff (t : Byte) : single t = false ↔ 1 < t.toNat % 32 := by
  rw [← Bool.not_eq_true, single_iff]; omega

/-- `BE16` as two bytes of the number. -/
theorem be16_eq (v : Half) :
    be16 v = [BitVec.ofNat 8 (v.toNat / 256), BitVec.ofNat 8 (v.toNat % 256)] := by
  have := v.isLt
  simp only [be16, List.cons.injEq, and_true]
  constructor <;> apply BitVec.eq_of_toNat_eq <;> rw [extract_toNat, BitVec.toNat_ofNat] <;> omega

@[simp] theorem be16_length (v : Half) : (be16 v).length = 2 := rfl

/-- Reading a big-endian halfword back, as a number (R64). -/
theorem be16At_toNat (bs : List Byte) (k : Nat) :
    (be16At bs k).toNat = (byteAt bs k).toNat * 256 + (byteAt bs (k + 1)).toNat :=
  append_toNat _ _

/-- The two bytes of `BE16` put together again. -/
theorem be16_append (v : Half) : v.extractLsb' 8 8 ++ v.extractLsb' 0 8 = v := by
  apply BitVec.eq_of_toNat_eq
  have := v.isLt
  rw [append_toNat, extract_toNat, extract_toNat]
  omega

/-- A scalar result, zero-extended, is the number of the field (R77). -/
theorem setWidth_eq_ofNat {n : Nat} (v : BitVec n) : v.setWidth 16 = BitVec.ofNat 16 v.toNat := by
  apply BitVec.eq_of_toNat_eq
  rw [BitVec.toNat_setWidth, BitVec.toNat_ofNat]

end Sys2Proof.Machine
end

