-- ==== Sys2Proof/Laws/Ops.lean ====
section
/-! SUPPORT. What the shared operations do, said once: ending an operation, raising an error, going on
after a function that can fail. -/

namespace Sys2Proof.Machine

theorem complete_eq (s : State) : complete s = .next { s with status := 0 } := rfl

theorem raise_eq (k : Completion) (s : State) : raise k s = .next { s with status := k.code } := rfl

theorem completeScalar_eq {n : Nat} (v : BitVec n) (s : State) :
    completeScalar v s = .next { s with r := v.setWidth 16, status := 0 } := rfl

@[simp] theorem orRaise_ok {α : Type} (v : α) (s : State) (f : α → Result) :
    orRaise (.ok v) s f = f v := rfl

@[simp] theorem orRaise_error {α : Type} (k : Completion) (s : State) (f : α → Result) :
    orRaise (.error k) s f = raise k s := rfl

/-- A next state after `complete` is the state with `OK` in `STATUS`. -/
theorem complete_next {s t : State} (h : complete s = .next t) : t = { s with status := 0 } := by
  cases h; rfl

/-- A next state after `raise` differs in `STATUS` only (R180). -/
theorem raise_next {k : Completion} {s t : State} (h : raise k s = .next t) :
    t = { s with status := k.code } := by
  cases h; rfl

/-- What `orRaise` can answer: the error raised, or the continuation on the value. -/
theorem orRaise_next {α : Type} {x : Except Completion α} {s t : State} {f : α → Result}
    (h : orRaise x s f = .next t) :
    (∃ k, x = .error k ∧ t = { s with status := k.code }) ∨ ∃ v, x = .ok v ∧ f v = .next t := by
  cases x with
  | error k => exact .inl ⟨k, rfl, raise_next h⟩
  | ok v => exact .inr ⟨v, rfl, h⟩

/-- No completion kind but `OK` has code 0, and codes go up to 5 (R170). -/
theorem code_eq_zero_iff (k : Completion) : k.code = 0 ↔ k = .ok := by
  cases k <;> decide

theorem code_toNat_le (k : Completion) : k.code.toNat ≤ 5 := by
  cases k <;> decide

end Sys2Proof.Machine
end

