-- ==== Sys2Proof/Laws/OptionCodec.lean ====
section
/-! SUPPORT. What the option functions and the option decoder's result writes do, case by case
(`41_option_codec.md` R114 to R121). -/

namespace Sys2Proof.Machine

/-- `optEncode` of a single-byte option (R114). -/
theorem optEncode_single {o : OptVal} (h : o.typ.toNat % 32 ≤ 1) : optEncode o = .ok [o.typ] := by
  rw [optEncode, if_pos ((single_iff _).mpr h)]

/-- `optEncode` of a well-formed TLV option (R114, R116). -/
theorem optEncode_tlv {o : OptVal} (h : 1 < o.typ.toNat % 32) (h2 : 2 ≤ o.len.toNat)
    (hv : o.len.toNat - 2 ≤ o.val.length) :
    optEncode o = .ok (o.typ :: o.len :: o.val.take (o.len.toNat - 2)) := by
  rw [optEncode, if_neg (by rw [single_iff]; omega), if_neg (by omega), if_neg (by omega)]

/-- `optEncode` refuses every other TLV option (R115). -/
theorem optEncode_refused {o : OptVal} (h : 1 < o.typ.toNat % 32)
    (h2 : o.len.toNat < 2 ∨ o.val.length < o.len.toNat - 2) : optEncode o = .error .badOperand := by
  rw [optEncode, if_neg (by rw [single_iff]; omega)]
  by_cases hl : o.len.toNat < 2
  · rw [if_pos hl]
  · rw [if_neg hl, if_pos (by omega)]

/-- `optEncode` can only raise `BadOperand` (R115). -/
theorem optEncode_error {o : OptVal} {k : Completion} (h : optEncode o = .error k) :
    k = .badOperand := by
  unfold optEncode at h
  repeat' split at h
  all_goals first | exact (Except.error.inj h).symm | cases h

/-- The equation of `optDecode` on a window with at least one byte (R118). -/
theorem optDecode_cons (t : Byte) (rest : List Byte) :
    optDecode (t :: rest) =
      if single t then .ok (some { typ := t, len := 0, val := [] }, 1)
      else
        match rest with
        | [] => .error .truncatedOption
        | l :: body =>
          if l.toNat < 2 then .error .truncatedOption
          else if l.toNat > body.length + 2 then .error .truncatedOption
          else .ok (some { typ := t, len := l, val := body.take (l.toNat - 2) }, l.toNat) := rfl

/-- `optDecode` of a window that begins with a single-byte type (R118, R120). -/
theorem optDecode_single {t : Byte} (rest : List Byte) (h : t.toNat % 32 ≤ 1) :
    optDecode (t :: rest) = .ok (some { typ := t, len := 0, val := [] }, 1) := by
  rw [optDecode_cons, if_pos ((single_iff _).mpr h)]

/-- `optDecode` of a TLV option that fits in the window (R118). -/
theorem optDecode_tlv {t l : Byte} (body : List Byte) (h : 1 < t.toNat % 32) (h2 : 2 ≤ l.toNat)
    (hf : l.toNat ≤ body.length + 2) :
    optDecode (t :: l :: body) =
      .ok (some { typ := t, len := l, val := body.take (l.toNat - 2) }, l.toNat) := by
  rw [optDecode_cons, if_neg (by rw [single_iff]; omega)]
  exact (if_neg (by omega)).trans (if_neg (by omega))

/-- A TLV type byte alone is a truncated option (R119). -/
theorem optDecode_alone {t : Byte} (h : 1 < t.toNat % 32) :
    optDecode [t] = .error .truncatedOption := by
  rw [optDecode_cons, if_neg (by rw [single_iff]; omega)]

/-- A TLV option with a length below 2 or beyond the window is truncated (R118, R119). -/
theorem optDecode_truncated {t l : Byte} (body : List Byte) (h : 1 < t.toNat % 32)
    (h2 : l.toNat < 2 ∨ body.length + 2 < l.toNat) :
    optDecode (t :: l :: body) = .error .truncatedOption := by
  rw [optDecode_cons, if_neg (by rw [single_iff]; omega)]
  by_cases hl : l.toNat < 2
  · exact if_pos hl
  · exact (if_neg hl).trans (if_pos (by omega))

/-- Everything `optDecode` can answer, once (R118). -/
theorem optDecode_cases (bs : List Byte) :
    (bs = [] ∧ optDecode bs = .ok (none, 0)) ∨
    (∃ t rest, bs = t :: rest ∧ t.toNat % 32 ≤ 1 ∧
      optDecode bs = .ok (some { typ := t, len := 0, val := [] }, 1)) ∨
    (∃ t l body, bs = t :: l :: body ∧ 1 < t.toNat % 32 ∧ 2 ≤ l.toNat ∧
      l.toNat ≤ body.length + 2 ∧
      optDecode bs = .ok (some { typ := t, len := l, val := body.take (l.toNat - 2) }, l.toNat)) ∨
    (∃ t rest, bs = t :: rest ∧ 1 < t.toNat % 32 ∧ optDecode bs = .error .truncatedOption) := by
  cases bs with
  | nil => exact .inl ⟨rfl, rfl⟩
  | cons t rest =>
    by_cases h : t.toNat % 32 ≤ 1
    · exact .inr (.inl ⟨t, rest, rfl, h, optDecode_single rest h⟩)
    · cases rest with
      | nil => exact .inr (.inr (.inr ⟨t, [], rfl, by omega, optDecode_alone (by omega)⟩))
      | cons l body =>
        by_cases hl : 2 ≤ l.toNat ∧ l.toNat ≤ body.length + 2
        · exact .inr (.inr (.inl
            ⟨t, l, body, rfl, by omega, hl.1, hl.2, optDecode_tlv body (by omega) hl.1 hl.2⟩))
        · exact .inr (.inr (.inr
            ⟨t, l :: body, rfl, by omega, optDecode_truncated body (by omega) (by omega)⟩))

/-- The option registers that hold a value give that value back. -/
@[simp] theorem toReg_value (o : OptVal) : o.toReg.value = o := by
  rw [OptReg.value, OptVal.toReg]
  simp only
  rw [read_cells]

@[simp] theorem value_val_length (o : OptReg) : o.value.val.length = o.vlen := by
  simp [OptReg.value]

/-- The result writes of the option decoder (R121). -/
theorem storeDecoded_next {s t : State} {d : Option OptVal × Nat} (h : storeDecoded s d = .next t) :
    (d.1 = none ∧ t = { s with r := countHalf d.2, status := 0 }) ∨
    ∃ v, d.1 = some v ∧ t = { s with o := v.toReg, r := countHalf d.2, status := 0 } := by
  unfold storeDecoded at h
  split at h
  · exact .inl ⟨by assumption, complete_next h⟩
  · exact .inr ⟨_, by assumption, complete_next h⟩

/-- The window of `OPTDEC` begins with the byte at the cursor. -/
theorem window_eq (s : State) (h : s.a.toNat < s.wlen) :
    s.wire.read s.a.toNat (s.wlen - s.a.toNat) =
      s.wire.byte s.a.toNat :: s.wire.read (s.a.toNat + 1) (s.wlen - (s.a.toNat + 1)) := by
  rw [show s.wlen - s.a.toNat = (s.wlen - (s.a.toNat + 1)) + 1 by omega, read_succ]

/-- With a byte at the cursor, `OPTDEC` is the option decoder on that type byte. -/
theorem execOptdec_eq (s : State) (h : s.a.toNat < s.wlen) :
    execOptdec s = decodeElement (s.wire.byte s.a.toNat) s := by
  rw [execOptdec, if_neg (by omega), window_eq s h, decodeElement]

/-- The option decoder on a single-byte type: it completes on every state. -/
theorem decodeElement_single (t : Byte) (s : State) (h : t.toNat % 32 ≤ 1) :
    decodeElement t s = .next
      { s with o := { typ := t, len := 0, vlen := 0, val := [] }, r := 1, status := 0 } := by
  rw [decodeElement, optDecode_single _ h]
  rfl

/-- The option decoder on a TLV type whose option fits in the window. -/
theorem decodeElement_tlv (t : Byte) (s : State) (h : 1 < t.toNat % 32)
    (hw : s.a.toNat + 1 < s.wlen) (h2 : 2 ≤ (s.wire.byte (s.a.toNat + 1)).toNat)
    (hf : s.a.toNat + (s.wire.byte (s.a.toNat + 1)).toNat ≤ s.wlen) :
    decodeElement t s = .next
      { s with
        o := OptVal.toReg
          { typ := t
            len := s.wire.byte (s.a.toNat + 1)
            val := s.wire.read (s.a.toNat + 2) ((s.wire.byte (s.a.toNat + 1)).toNat - 2) }
        r := countHalf (s.wire.byte (s.a.toNat + 1)).toNat
        status := 0 } := by
  rw [decodeElement, show s.wlen - (s.a.toNat + 1) = (s.wlen - (s.a.toNat + 2)) + 1 by omega,
    read_succ, optDecode_tlv _ h h2 (by rw [read_length]; omega), read_take,
    Nat.min_eq_left (by omega)]
  rfl

/-- The option decoder on a TLV type whose option does not fit: a truncated option. -/
theorem decodeElement_truncated (t : Byte) (s : State) (h : 1 < t.toNat % 32)
    (hn : ¬ (s.a.toNat + 1 < s.wlen ∧ 2 ≤ (s.wire.byte (s.a.toNat + 1)).toNat ∧
      s.a.toNat + (s.wire.byte (s.a.toNat + 1)).toNat ≤ s.wlen)) :
    decodeElement t s = .next { s with status := 2 } := by
  rw [decodeElement]
  by_cases hw : s.a.toNat + 1 < s.wlen
  · rw [show s.wlen - (s.a.toNat + 1) = (s.wlen - (s.a.toNat + 2)) + 1 by omega,
      read_succ, optDecode_truncated _ h (by rw [read_length]; omega)]
    rfl
  · rw [show s.wlen - (s.a.toNat + 1) = 0 by omega, read_zero, optDecode_alone h]
    rfl

end Sys2Proof.Machine
end

