-- ==== Sys2Proof/Laws/HeaderEngine.lean ====
section
/-! SUPPORT. What the functions of the header engine do, case by case (`42_header_engine.md` R140 to
R148). -/

namespace Sys2Proof.Machine

/-- The encodings of a list of options, when every one encodes (R140, step 1). -/
theorem encodeOptions_ok {os : List OptVal} {f : OptVal → List Byte}
    (h : ∀ o ∈ os, optEncode o = .ok (f o)) : encodeOptions os = .ok (os.flatMap f) := by
  induction os with
  | nil => rfl
  | cons o os ih =>
    rw [encodeOptions, h o (by simp)]
    simp only
    rw [ih fun o ho => h o (by simp [ho])]
    simp

/-- If the list encodes, every option of it does. -/
theorem encodeOptions_mem {os : List OptVal} {bs : List Byte} (h : encodeOptions os = .ok bs) :
    ∀ o ∈ os, ∃ b, optEncode o = .ok b := by
  induction os generalizing bs with
  | nil => simp
  | cons o os ih =>
    rw [encodeOptions] at h
    split at h
    · cases h
    · rename_i b hb
      split at h
      · cases h
      · rename_i bs' hbs
        intro x hx
        rcases List.mem_cons.mp hx with rfl | hx
        · exact ⟨b, hb⟩
        · exact ih hbs x hx

/-- A list that does not encode is refused as `BadOperand` (R115, R140). -/
theorem encodeOptions_error {os : List OptVal} {k : Completion} (h : encodeOptions os = .error k) :
    k = .badOperand := by
  induction os with
  | nil => cases h
  | cons o os ih =>
    rw [encodeOptions] at h
    split at h
    · rename_i k' hk
      cases h; exact optEncode_error hk
    · split at h
      · rename_i k' hk
        cases h; exact ih hk
      · cases h

@[simp] theorem fixedHeader_length (p : Pkt) (ihl : BitVec 4) (tlen ck : Half) :
    (fixedHeader p ihl tlen ck).length = 20 := by
  simp [fixedHeader]

@[simp] theorem assemble_bytes_length (p : Pkt) (ob pay : List Byte) :
    (assemble p ob pay).bytes.length = 20 + ob.length + pay.length := by
  simp [assemble]; omega

/-- Everything `hdrEncode` can answer, once (R140, R142, R178). -/
theorem hdrEncode_cases (p : Pkt) (os : List OptVal) (pay : List Byte) :
    (∃ raw, encodeOptions os = .ok raw ∧ (pad raw).length ≤ 40 ∧
      20 + (pad raw).length + pay.length ≤ 65535 ∧
      hdrEncode p os pay = .ok (assemble p (pad raw) pay)) ∨
    (hdrEncode p os pay = .error .badOperand ∧
      ((∃ k, encodeOptions os = .error k) ∨ ∃ raw, encodeOptions os = .ok raw ∧
        (40 < (pad raw).length ∨ 65535 < 20 + (pad raw).length + pay.length))) := by
  unfold hdrEncode
  cases h : encodeOptions os with
  | error k => exact .inr ⟨by simp [encodeOptions_error h], .inl ⟨k, rfl⟩⟩
  | ok raw =>
    by_cases h1 : (pad raw).length > 40
    · exact .inr ⟨if_pos h1, .inr ⟨raw, rfl, .inl h1⟩⟩
    · by_cases h2 : 20 + (pad raw).length + pay.length > 65535
      · exact .inr ⟨(if_neg h1).trans (if_pos h2), .inr ⟨raw, rfl, .inr h2⟩⟩
      · exact .inl ⟨raw, rfl, by omega, by omega, (if_neg h1).trans (if_neg h2)⟩

/-- Everything `hdrDecode` can answer, once, in the order of its tests (R145, R177). -/
theorem hdrDecode_cases (w : List Byte) :
    (w.length < 20 ∧ hdrDecode w = .error .tooShort) ∨
    (20 ≤ w.length ∧ (byteAt w 0).toNat % 16 < 5 ∧ hdrDecode w = .error .malformedOptionsRegion) ∨
    (20 ≤ w.length ∧ 5 ≤ (byteAt w 0).toNat % 16 ∧ w.length < (byteAt w 0).toNat % 16 * 4 ∧
      hdrDecode w = .error .tooShort) ∨
    (20 ≤ w.length ∧ 5 ≤ (byteAt w 0).toNat % 16 ∧ (byteAt w 0).toNat % 16 * 4 ≤ w.length ∧
      ((∃ k, parseOptions w ((byteAt w 0).toNat % 16 * 4) = .error k ∧ hdrDecode w = .error k) ∨
        ∃ os, parseOptions w ((byteAt w 0).toNat % 16 * 4) = .ok os ∧
          hdrDecode w = .ok
            { pkt := decodeFields w, opts := os, pay := w.drop ((byteAt w 0).toNat % 16 * 4) })) := by
  have hl : (decodeFields w).ihl.toNat * 4 = (byteAt w 0).toNat % 16 * 4 := by
    rw [decodeFields, ihlw_toNat]
  unfold hdrDecode
  by_cases h1 : w.length < 20
  · exact .inl ⟨h1, if_pos h1⟩
  · rw [if_neg h1]
    simp only [hl]
    by_cases h2 : (byteAt w 0).toNat % 16 * 4 < 20
    · exact .inr (.inl ⟨by omega, by omega, if_pos h2⟩)
    · rw [if_neg h2]
      by_cases h3 : w.length < (byteAt w 0).toNat % 16 * 4
      · exact .inr (.inr (.inl ⟨by omega, by omega, h3, if_pos h3⟩))
      · rw [if_neg h3]
        refine .inr (.inr (.inr ⟨by omega, by omega, by omega, ?_⟩))
        cases h : parseOptions w ((byteAt w 0).toNat % 16 * 4) with
        | error k => exact .inl ⟨k, rfl, rfl⟩
        | ok os => exact .inr ⟨os, rfl, rfl⟩

/-- One turn of the option loop (R146). -/
theorem parseLoop_succ (w : List Byte) (hl fuel c : Nat) :
    parseLoop w hl (fuel + 1) c =
      if c < hl then
        match optDecode (w.drop c) with
        | .error k => .error k
        | .ok (none, _) => .ok []
        | .ok (some o, n) =>
          if c + n > hl then .error .malformedOptionsRegion
          else if isEOL o.typ then .ok [o]
          else
            match parseLoop w hl fuel (c + n) with
            | .error k => .error k
            | .ok os => .ok (o :: os)
      else .ok [] := rfl

/-- The loop ends at the header length (R146). -/
theorem parseLoop_end (w : List Byte) (hl fuel c : Nat) (h : hl ≤ c) :
    parseLoop w hl fuel c = .ok [] := by
  cases fuel with
  | zero => rfl
  | succ n => rw [parseLoop_succ, if_neg (by omega)]

/-- Any two amounts of fuel that cover the bytes left give the same: each option takes at least one byte
(R146). -/
theorem parseLoop_fuel (w : List Byte) (hl f g c : Nat) (hf : hl - c ≤ f) (hg : hl - c ≤ g) :
    parseLoop w hl f c = parseLoop w hl g c := by
  induction f generalizing c g with
  | zero => rw [parseLoop_end _ _ _ _ (by omega), parseLoop_end _ _ _ _ (by omega)]
  | succ n ih =>
    by_cases hc : c < hl
    · obtain ⟨m, rfl⟩ : ∃ m, g = m + 1 := ⟨g - 1, by omega⟩
      rw [parseLoop_succ, parseLoop_succ, if_pos hc, if_pos hc]
      rcases optDecode_cases (w.drop c) with ⟨_, hd⟩ | ⟨t, rest, _, _, hd⟩ |
        ⟨t, l, body, _, _, h2, _, hd⟩ | ⟨t, rest, _, _, hd⟩ <;> simp only [hd]
      · rw [ih m (c + 1) (by omega) (by omega)]
      · rw [ih m (c + l.toNat) (by omega) (by omega)]
    · rw [parseLoop_end _ _ _ _ (by omega), parseLoop_end _ _ _ _ (by omega)]

/-- What the loop gives is bounded, in count by its turns and in value length by the length byte
(R69, R146). -/
theorem parseLoop_bounds {w : List Byte} {hl f c : Nat} {os : List OptVal}
    (h : parseLoop w hl f c = .ok os) :
    os.length ≤ f ∧ ∀ o ∈ os, o.val.length ≤ 253 := by
  induction f generalizing c os with
  | zero => cases h; simp
  | succ n ih =>
    rw [parseLoop_succ] at h
    split at h
    · rcases optDecode_cases (w.drop c) with ⟨_, hd⟩ | ⟨t, rest, _, _, hd⟩ |
        ⟨t, l, body, _, _, h2, _, hd⟩ | ⟨t, rest, _, _, hd⟩ <;> rw [hd] at h <;> simp only at h
      · cases h; simp
      all_goals repeat' split at h
      all_goals first | cases h; done | skip
      · cases h; simp
      · rename_i os' hos
        cases h
        have := ih hos
        exact ⟨by simp only [List.length_cons]; omega, by simpa using this.2⟩
      · cases h
        have := l.isLt
        simp only [List.length_cons, List.length_nil, List.mem_singleton, forall_eq,
          List.length_take]
        omega
      · rename_i os' hos
        cases h
        have h1 := ih hos
        have := l.isLt
        refine ⟨by simp only [List.length_cons]; omega, ?_⟩
        intro o ho
        rcases List.mem_cons.mp ho with rfl | ho
        · simp only [List.length_take]; omega
        · exact h1.2 o ho
    · cases h; simp

/-- The loop raises only the two option errors (R172, R173). -/
theorem parseLoop_error {w : List Byte} {hl f c : Nat} {k : Completion}
    (h : parseLoop w hl f c = .error k) : k = .truncatedOption ∨ k = .malformedOptionsRegion := by
  induction f generalizing c with
  | zero => cases h
  | succ n ih =>
    rw [parseLoop_succ] at h
    split at h
    · rcases optDecode_cases (w.drop c) with ⟨_, hd⟩ | ⟨t, rest, _, _, hd⟩ |
        ⟨t, l, body, _, _, h2, _, hd⟩ | ⟨t, rest, _, _, hd⟩ <;> rw [hd] at h <;> simp only at h
      · cases h
      · repeat' split at h
        all_goals cases h
        · exact .inr rfl
        · exact ih ‹_›
      · repeat' split at h
        all_goals cases h
        · exact .inr rfl
        · exact ih ‹_›
      · cases h; exact .inl rfl
    · cases h

/-- The list entries after a store: the stored options from index `k` on, the others unchanged
(R148). -/
theorem storeOpts_getElem? (k : Nat) (os : List OptVal) (v : Vector OptReg 40) (j : Nat)
    (h : k + os.length ≤ 40) :
    (storeOpts k os v)[j]? =
      if k ≤ j ∧ j < k + os.length then (os[j - k]?).map OptVal.toReg else v[j]? := by
  induction os generalizing k v with
  | nil => rw [storeOpts, if_neg (by simp)]
  | cons o os ih =>
    simp only [List.length_cons] at h
    rw [storeOpts, ih (k + 1) _ (by omega)]
    by_cases hj : j = k
    · subst hj
      rw [if_neg (by omega), if_pos (by simp only [List.length_cons]; omega),
        Vector.getElem?_setIfInBounds_self]
      simp
      omega
    · by_cases hr : k + 1 ≤ j ∧ j < k + 1 + os.length
      · rw [if_pos hr, if_pos (by simp only [List.length_cons]; omega),
          show j - k = (j - (k + 1)) + 1 by omega, List.getElem?_cons_succ]
      · rw [if_neg hr, if_neg (by simp only [List.length_cons]; omega),
          Vector.getElem?_setIfInBounds_ne (by omega)]

end Sys2Proof.Machine
end

