-- ==== Sys2Proof/Laws/Dispatch.lean ====
section
/-! SUPPORT. What each meaning that can fail does, once: if it answers a next state, which one. The
meanings that cannot fail are equations already (`completeScalar_eq`, `complete_eq`). -/

namespace Sys2Proof.Machine

/-- Every row of format `OPTTYPE` is the option decoder on the byte that encodes it (log 4). -/
theorem exec_optType {i : Instr} (h : i.format = .optType) (s : State) :
    exec i s = decodeElement (encodeByte i) s := by
  cases i <;> first | rfl | cases h

/-- `OPTENC`: refused, or the option's bytes in `WIRE` (R117). -/
theorem execOptenc_next {s t : State} (h : execOptenc s = .next t) :
    t = { s with status := 4 } ∨
    ∃ b, optEncode s.o.value = .ok b ∧ t =
      { s with wire := s.wire.write 0 b, wlen := b.length, r := countHalf b.length, status := 0 } := by
  rcases orRaise_next h with ⟨k, hk, rfl⟩ | ⟨b, hb, hc⟩
  · rw [optEncode_error hk]; exact .inl rfl
  · exact .inr ⟨b, hb, complete_next hc⟩

/-- The option decoder on a type byte: truncated, or the decoded option in `O` (R118, R121). -/
theorem decodeElement_next {c : Byte} {s t : State} (h : decodeElement c s = .next t) :
    t = { s with status := 2 } ∨
    ∃ o n, o.val.length ≤ 253 ∧ t = { s with o := OptVal.toReg o, r := countHalf n, status := 0 } := by
  unfold decodeElement at h
  rcases optDecode_cases (c :: s.wire.read (s.a.toNat + 1) (s.wlen - (s.a.toNat + 1))) with
    ⟨hn, _⟩ | ⟨_, _, _, _, hd⟩ | ⟨_, l, _, _, _, _, _, hd⟩ | ⟨_, _, _, _, hd⟩
  · cases hn
  · rw [hd] at h
    exact .inr ⟨_, _, by simp, complete_next h⟩
  · rw [hd] at h
    have := l.isLt
    exact .inr ⟨_, _, by simp only [List.length_take]; omega, complete_next h⟩
  · rw [hd] at h
    exact .inl (raise_next h)

/-- `OPTDEC`: a bad cursor, an empty window, or the option decoder on the byte at the cursor
(R121). -/
theorem execOptdec_next {s t : State} (h : execOptdec s = .next t) :
    (s.wlen < s.a.toNat ∧ t = { s with status := 4 }) ∨
    (s.a.toNat = s.wlen ∧ t = { s with r := 0, status := 0 }) ∨
    (s.a.toNat < s.wlen ∧ decodeElement (s.wire.byte s.a.toNat) s = .next t) := by
  rcases Nat.lt_trichotomy s.a.toNat s.wlen with hlt | heq | hgt
  · exact .inr (.inr ⟨hlt, execOptdec_eq s hlt ▸ h⟩)
  · rw [execOptdec, if_neg (by omega), heq, Nat.sub_self] at h
    exact .inr (.inl ⟨heq, complete_next h⟩)
  · rw [execOptdec, if_pos hgt] at h
    exact .inl ⟨hgt, raise_next h⟩

/-- `WITHOPT`: a full list, or `O` appended (R133). -/
theorem execWithopt_next {s t : State} (h : execWithopt s = .next t) :
    (40 ≤ s.nopt ∧ t = { s with status := 4 }) ∨
    (s.nopt < 40 ∧
      t = { s with opts := s.opts.setIfInBounds s.nopt s.o, nopt := s.nopt + 1, status := 0 }) := by
  unfold execWithopt at h
  split at h
  · exact .inl ⟨by assumption, raise_next h⟩
  · exact .inr ⟨Nat.lt_of_not_le (by assumption), complete_next h⟩

/-- `HDRENC`: refused, or the assembled datagram in `WIRE` and the recomputed registers (R143). -/
theorem execHdrenc_next {s t : State} (h : execHdrenc s = .next t) :
    t = { s with status := 4 } ∨
    ∃ raw, encodeOptions (optList s) = .ok raw ∧ (pad raw).length ≤ 40 ∧
      20 + (pad raw).length + s.plen ≤ 65535 ∧
      t =
        { s with
          wire := s.wire.write 0 (assemble s.pkt (pad raw) (payload s)).bytes
          wlen := 20 + (pad raw).length + s.plen
          pkt :=
            { s.pkt with
              ihl := (assemble s.pkt (pad raw) (payload s)).ihl
              tlen := (assemble s.pkt (pad raw) (payload s)).tlen
              cksum := (assemble s.pkt (pad raw) (payload s)).ck }
          status := 0 } := by
  have hp : (payload s).length = s.plen := read_length _ _ _
  unfold execHdrenc at h
  rcases hdrEncode_cases s.pkt (optList s) (payload s) with ⟨raw, h1, h2, h3, he⟩ | ⟨he, _⟩
  · rw [he] at h
    have := complete_next h
    rw [assemble_bytes_length, hp] at this
    exact .inr ⟨raw, h1, h2, by omega, this⟩
  · rw [he] at h
    exact .inl (raise_next h)

/-- `HDRDEC`: one of its three errors, or the decoded Packet in the registers (R148, R177). -/
theorem execHdrdec_next {s t : State} (h : execHdrdec s = .next t) :
    (∃ k, hdrDecode (wireBytes s) = .error k ∧ t = { s with status := k.code }) ∨
    ∃ d, hdrDecode (wireBytes s) = .ok d ∧ t =
      { s with
        pkt := d.pkt
        opts := storeOpts 0 d.opts s.opts
        nopt := d.opts.length
        pay := s.pay.write 0 d.pay
        plen := d.pay.length
        status := 0 } := by
  rcases orRaise_next h with hk | ⟨d, hd, hc⟩
  · exact .inl hk
  · exact .inr ⟨d, hd, complete_next hc⟩

/-- `CKSUM`: a bad length, or the checksum in `R` (R164). -/
theorem execCksum_next {s t : State} (h : execCksum s = .next t) :
    (s.wlen < s.a.toNat ∧ t = { s with status := 4 }) ∨
    (s.a.toNat ≤ s.wlen ∧ t = { s with r := cksum (s.wire.read 0 s.a.toNat), status := 0 }) := by
  unfold execCksum at h
  split at h
  · exact .inl ⟨by assumption, raise_next h⟩
  · exact .inr ⟨by omega, complete_next h⟩

end Sys2Proof.Machine
end

