-- ==== Sys2Proof/Laws/PerInstr.lean ====
section
/-! SUPPORT. One lemma per instruction: the byte that encodes it decodes to it, in its own format
(`30_encoding.md` R70, R75). -/

namespace Sys2Proof.Laws.ByteRoundTrip

/-- The encoded byte of an instruction decodes to it. -/
def Statement (i : Instr) : Prop :=
  (i.format = .op8 → decodeOp (encodeByte i) = .ok i) ∧
  (i.format = .optType → decodeOptType (encodeByte i) = i)

theorem ver : Statement .ver := by unfold Statement; decide
theorem ihl : Statement .ihl := by unfold Statement; decide
theorem flg : Statement .flg := by unfold Statement; decide
theorem foff : Statement .foff := by unfold Statement; decide
theorem ocpy : Statement .ocpy := by unfold Statement; decide
theorem ocls : Statement .ocls := by unfold Statement; decide
theorem onum : Statement .onum := by unfold Statement; decide
theorem optenc : Statement .optenc := by unfold Statement; decide
theorem optdec : Statement .optdec := by unfold Statement; decide
theorem pktnew : Statement .pktnew := by unfold Statement; decide
theorem withopt : Statement .withopt := by unfold Statement; decide
theorem hdrenc : Statement .hdrenc := by unfold Statement; decide
theorem hdrdec : Statement .hdrdec := by unfold Statement; decide
theorem cksum : Statement .cksum := by unfold Statement; decide

theorem optEol (c : BitVec 1) (k : BitVec 2) : Statement (.optEol c k) :=
  ⟨by simp [Instr.format], fun _ => by revert c k; decide⟩

theorem optNop (c : BitVec 1) (k : BitVec 2) : Statement (.optNop c k) :=
  ⟨by simp [Instr.format], fun _ => by revert c k; decide⟩

theorem optTlv16 (c : BitVec 1) (k : BitVec 2) (n : BitVec 4) : Statement (.optTlv16 c k n) :=
  ⟨by simp [Instr.format], fun _ => by revert c k n; decide⟩

theorem optTlv8 (c : BitVec 1) (k : BitVec 2) (n : BitVec 3) : Statement (.optTlv8 c k n) :=
  ⟨by simp [Instr.format], fun _ => by revert c k n; decide⟩

theorem optTlv4 (c : BitVec 1) (k : BitVec 2) (n : BitVec 2) : Statement (.optTlv4 c k n) :=
  ⟨by simp [Instr.format], fun _ => by revert c k n; decide⟩

theorem optTlv2 (c : BitVec 1) (k : BitVec 2) (n : BitVec 1) : Statement (.optTlv2 c k n) :=
  ⟨by simp [Instr.format], fun _ => by revert c k n; decide⟩

end Sys2Proof.Laws.ByteRoundTrip
end

