-- ==== Sys2Proof/Laws/State.lean ====
section
/-! SUPPORT. Field lemmas: what each named update leaves in each field of the state. -/

namespace Sys2Proof.Machine

@[simp] theorem reset_op : State.reset.op = 0 := rfl
@[simp] theorem reset_status : State.reset.status = 0 := rfl
@[simp] theorem reset_a : State.reset.a = 0 := rfl
@[simp] theorem reset_r : State.reset.r = 0 := rfl
@[simp] theorem reset_pkt : State.reset.pkt = Pkt.reset := rfl
@[simp] theorem reset_o : State.reset.o = OptReg.empty := rfl
@[simp] theorem reset_nopt : State.reset.nopt = 0 := rfl
@[simp] theorem reset_opts : State.reset.opts = Vector.replicate 40 OptReg.empty := rfl
@[simp] theorem reset_plen : State.reset.plen = 0 := rfl
@[simp] theorem reset_pay : State.reset.pay = [] := rfl
@[simp] theorem reset_wlen : State.reset.wlen = 0 := rfl
@[simp] theorem reset_wire : State.reset.wire = [] := rfl
@[simp] theorem reset_host : State.reset.host = [] := rfl

section modifyOpt
variable (s : State) (k : Nat) (f : OptReg → OptReg)

@[simp] theorem modifyOpt_op : (modifyOpt s k f).op = s.op := rfl
@[simp] theorem modifyOpt_status : (modifyOpt s k f).status = s.status := rfl
@[simp] theorem modifyOpt_a : (modifyOpt s k f).a = s.a := rfl
@[simp] theorem modifyOpt_r : (modifyOpt s k f).r = s.r := rfl
@[simp] theorem modifyOpt_pkt : (modifyOpt s k f).pkt = s.pkt := rfl
@[simp] theorem modifyOpt_o : (modifyOpt s k f).o = s.o := rfl
@[simp] theorem modifyOpt_nopt : (modifyOpt s k f).nopt = s.nopt := rfl
@[simp] theorem modifyOpt_opts :
    (modifyOpt s k f).opts = s.opts.setIfInBounds k (f (optAt s k)) := rfl
@[simp] theorem modifyOpt_plen : (modifyOpt s k f).plen = s.plen := rfl
@[simp] theorem modifyOpt_pay : (modifyOpt s k f).pay = s.pay := rfl
@[simp] theorem modifyOpt_wlen : (modifyOpt s k f).wlen = s.wlen := rfl
@[simp] theorem modifyOpt_wire : (modifyOpt s k f).wire = s.wire := rfl
@[simp] theorem modifyOpt_host : (modifyOpt s k f).host = s.host := rfl

end modifyOpt

@[simp] theorem toReg_typ (o : OptVal) : o.toReg.typ = o.typ := rfl
@[simp] theorem toReg_len (o : OptVal) : o.toReg.len = o.len := rfl
@[simp] theorem toReg_vlen (o : OptVal) : o.toReg.vlen = o.val.length := rfl
@[simp] theorem toReg_val (o : OptVal) : o.toReg.val = Memory.cells 0 o.val := rfl
@[simp] theorem value_typ (o : OptReg) : o.value.typ = o.typ := rfl
@[simp] theorem value_len (o : OptReg) : o.value.len = o.len := rfl
@[simp] theorem value_val (o : OptReg) : o.value.val = o.val.read 0 o.vlen := rfl

/-- A write to a length, a scalar or a descriptor register never changes the host's pending events. -/
@[simp] theorem putLoc_host (l : Loc) (v : Nat) (s : State) : (putLoc l v s).host = s.host := by
  cases l <;> rfl

/-- Only a host write to `OP` changes `OP`. -/
theorem putLoc_op_of_ne (l : Loc) (v : Nat) (s : State) (h : l ≠ .op) :
    (putLoc l v s).op = s.op := by
  cases l <;> first | rfl | exact absurd rfl h

/-- No host write changes `STATUS` (R28). -/
@[simp] theorem putLoc_status (l : Loc) (v : Nat) (s : State) :
    (putLoc l v s).status = s.status := by
  cases l <;> rfl

end Sys2Proof.Machine
end

