-- ==== Sys2Proof/Laws/Step.lean ====
section
/-! SUPPORT. What a step can do, said once: nothing, a plain host access, an operation, or a reset
(`10_state.md` R20, R28, R31). -/

namespace Sys2Proof.Machine

/-- A host write that lands was of a value that fits, at a place that exists (R31). -/
theorem hostWrite_next {l : Loc} {v : Nat} {s t : State} (h : hostWrite l v s = .next t) :
    l.present = true ∧ v ≤ l.limit ∧ t = putLoc l v s := by
  unfold hostWrite at h
  repeat' split at h
  all_goals first | exact ⟨by assumption, by assumption, (Host.Outcome.next.inj h).symm⟩ | cases h

/-- A host read that answers changes nothing (R45). -/
theorem hostRead_next {l : Loc} {s t : State} (h : hostRead l s = .next t) :
    l.present = true ∧ holdsValue s l = true ∧ t = s := by
  unfold hostRead at h
  repeat' split at h
  all_goals first | exact ⟨by assumption, by assumption, (Host.Outcome.next.inj h).symm⟩ | cases h

/-- Starting an operation: the decoded instruction, or `IllegalOp` (R28, R76). -/
theorem startOp_cases (s : State) :
    (∃ i, decodeOp s.op = .ok i ∧ startOp s = exec i s) ∨
    (∃ e, decodeOp s.op = .error e ∧ startOp s = .next { s with status := 5 }) := by
  unfold startOp
  cases h : decodeOp s.op with
  | ok i => exact .inl ⟨i, rfl, rfl⟩
  | error e => exact .inr ⟨e, rfl, rfl⟩

/-- One event, if it answers a next state. -/
theorem runEvent_next {e : HostEvent} {s t : State} (h : runEvent e s = .next t) :
    (∃ l v, e = .write l v ∧ l.present = true ∧ v ≤ l.limit ∧
      (l ≠ .op ∧ t = putLoc l v s ∨ l = .op ∧ startOp (putLoc l v s) = .next t)) ∨
    (∃ l, e = .read l ∧ t = s) ∨
    (e = .reset ∧ t = { State.reset with host := s.host }) := by
  cases e with
  | write l v =>
    simp only [runEvent] at h
    cases hw : hostWrite l v s with
    | fault f => rw [hw] at h; cases h
    | refused q => rw [hw] at h; cases h
    | next u =>
      obtain ⟨hp, hv, rfl⟩ := hostWrite_next hw
      rw [hw] at h
      simp only at h
      refine .inl ⟨l, v, rfl, hp, hv, ?_⟩
      by_cases hl : l = .op
      · exact .inr ⟨hl, by simpa [hl] using h⟩
      · rw [if_neg hl] at h
        exact .inl ⟨hl, (Host.Outcome.next.inj h).symm⟩
  | read l => exact .inr (.inl ⟨l, rfl, (hostRead_next h).2.2⟩)
  | reset => exact .inr (.inr ⟨rfl, (Host.Outcome.next.inj h).symm⟩)

/-- One step, if it answers a next state: idle, or the host's next event. -/
theorem step_next {s t : State} (h : step s = .next t) :
    (s.host = [] ∧ t = s) ∨
    ∃ e rest, s.host = e :: rest ∧ runEvent e { s with host := rest } = .next t := by
  unfold step at h
  split at h
  · exact .inl ⟨by assumption, (Host.Outcome.next.inj h).symm⟩
  · exact .inr ⟨_, _, by assumption, h⟩

end Sys2Proof.Machine
end

