-- ==== Sys2Proof/Machine/Pseudo.lean ====
section
/-! DEFINITION. The pseudo-operations: source functions that expand to host writes and operations
(`30_encoding.md` R86). -/

namespace Sys2Proof.Machine

/-- The host writes a byte sequence to consecutive places. -/
def writeBytes (place : Nat → Loc) (bs : List Byte) : List HostEvent :=
  bs.zipIdx.map fun x => .write (place x.2) x.1.toNat

/-- The host starts an operation by writing its code to `OP` (R28). -/
def startEvent (i : Instr) : HostEvent := .write .op (encodeByte i).toNat

/-- The host writes an option to `O`. -/
def writeOption (o : OptVal) : List HostEvent :=
  [.write .oTyp o.typ.toNat, .write .oLen o.len.toNat] ++ writeBytes .oVal o.val ++
    [.write .oVlen o.val.length]

/-- `newPacket(source, destination, payload)` (R86). -/
def newPacket (source destination : Vector Byte 4) (pay : List Byte) : List HostEvent :=
  writeBytes .src source.toList ++ writeBytes .dst destination.toList ++ writeBytes .pay pay ++
    [.write .plen pay.length, startEvent .pktnew]

/-- `withOptions(Packet, options...)`: each option in argument order, then `WITHOPT` (R86). -/
def withOptions (os : List OptVal) : List HostEvent :=
  os.flatMap fun o => writeOption o ++ [startEvent .withopt]

end Sys2Proof.Machine
end

