-- ==== Sys2Proof/Tests/Slice0.lean ====
section
/-! SUPPORT. The model's own tests. Expected results are the vectors of `95_test_vectors.md` (named V10 to
V113 below) and words written out from the encodings of `30_encoding.md`; never the model's own
answers. The second half shows that the hypotheses of every statement are met. -/

open Sys2Proof Sys2Proof.Machine

namespace Sys2Proof.Tests

/-- Whether an outcome is a next state with a property. -/
def holds (x : Result) (p : State → Bool) : Bool :=
  match x with
  | .next t => p t
  | .fault _ => false
  | .refused _ => false

/-- The state the machine is in after a list of host events, if it did not stop. -/
def afterEvents : List HostEvent → State → Option State
  | [], s => some s
  | e :: es, s =>
    match runEvent e s with
    | .next t => afterEvents es t
    | .fault _ => none
    | .refused _ => none

/-- A state with `A`. -/
def withA (a : Half) : State := { State.reset with a := a }

/-- A state with wire bytes and `A`. -/
def withWire (bs : List Byte) (a : Half) : State :=
  { State.reset with wire := Memory.cells 0 bs, wlen := bs.length, a := a }

/-- A state with an option in `O`. -/
def withO (t l : Byte) (val : List Byte) : State :=
  { State.reset with o := { typ := t, len := l, vlen := val.length, val := Memory.cells 0 val } }

/-- The packet `STD` of the vectors. -/
def std : Pkt := { Pkt.reset with src := #v[1, 2, 3, 4], dst := #v[1, 2, 3, 4] }

/-- A state with a packet to encode. -/
def withPacket (p : Pkt) (os : List OptVal) (pay : List Byte) : State :=
  { State.reset with
    pkt := p
    opts := storeOpts 0 os (Vector.replicate 40 OptReg.empty)
    nopt := os.length
    pay := Memory.cells 0 pay
    plen := pay.length }

/-- A header of 20 bytes with a given first byte and zeros after it, and what follows. -/
def zeroHeader (b : Byte) (rest : List Byte) : State :=
  withWire (b :: List.replicate 19 0 ++ rest) 0

/-- The reset state with one host event pending. -/
def pending (e : HostEvent) : State := { State.reset with host := [e] }

/-! ### Well-formedness refuses, by each check -/

theorem test_wf_refuses_missing_place :
    (HostEvent.write (.wire 65535) 0).wf = false ∧ (HostEvent.write (.pay 65515) 0).wf = false ∧
    (HostEvent.write (.src 4) 0).wf = false ∧ (HostEvent.read (.dst 4)).wf = false ∧
    (HostEvent.write (.oVal 255) 0).wf = false ∧ (HostEvent.read (.optTyp 40)).wf = false ∧
    (HostEvent.write (.optVal 0 255) 0).wf = false ∧ (HostEvent.read (.optVal 40 0)).wf = false := by
  decide

theorem test_wf_refuses_large_value :
    (HostEvent.write .nopt 41).wf = false ∧ (HostEvent.write .plen 65516).wf = false ∧
    (HostEvent.write .wlen 65536).wf = false ∧ (HostEvent.write .oVlen 256).wf = false ∧
    (HostEvent.write (.optVlen 0) 256).wf = false ∧ (HostEvent.write .op 256).wf = false ∧
    (HostEvent.write .ver 16).wf = false ∧ (HostEvent.write .flags 8).wf = false ∧
    (HostEvent.write .foff 8192).wf = false ∧ (HostEvent.write .a 65536).wf = false := by
  decide

theorem test_wf_accepts_the_largest :
    (HostEvent.write (.wire 65534) 255).wf = true ∧ (HostEvent.write .nopt 40).wf = true ∧
    (HostEvent.write .foff 8191).wf = true ∧ (HostEvent.read (.optVal 39 254)).wf = true ∧
    HostEvent.reset.wf = true := by
  decide

/-! ### Decoding: every row's word written bit by bit (R70, R75) -/

theorem test_decode_op_words :
    decodeTableWord 8 0b00010000 = some .ver ∧ decodeTableWord 8 0b00010001 = some .ihl ∧
    decodeTableWord 8 0b00010010 = some .flg ∧ decodeTableWord 8 0b00010011 = some .foff ∧
    decodeTableWord 8 0b00100000 = some .ocpy ∧ decodeTableWord 8 0b00100001 = some .ocls ∧
    decodeTableWord 8 0b00100010 = some .onum ∧ decodeTableWord 8 0b00101000 = some .optenc ∧
    decodeTableWord 8 0b00101001 = some .optdec ∧ decodeTableWord 8 0b00110000 = some .pktnew ∧
    decodeTableWord 8 0b00110001 = some .withopt ∧ decodeTableWord 8 0b00111000 = some .hdrenc ∧
    decodeTableWord 8 0b00111001 = some .hdrdec ∧ decodeTableWord 8 0b01000000 = some .cksum := by
  decide

theorem test_decode_type_words :
    decodeTableWord 8 0b00000000 = some (.optEol 0 0) ∧
    decodeTableWord 8 0b11000000 = some (.optEol 1 2) ∧
    decodeTableWord 8 0b00000001 = some (.optNop 0 0) ∧
    decodeTableWord 8 0b10100001 = some (.optNop 1 1) ∧
    decodeTableWord 8 0b01010011 = some (.optTlv16 0 2 0b0011) ∧
    decodeTableWord 8 0b10001101 = some (.optTlv8 1 0 0b101) ∧
    decodeTableWord 8 0b01100110 = some (.optTlv4 0 3 0b10) ∧
    decodeTableWord 8 0b11100011 = some (.optTlv2 1 3 0b1) := by
  decide

/-- A byte that is a code of `OP8` and a type byte at once, read in each format. -/
theorem test_decode_format_decides :
    decode .op8 [0b00010000] = .ok (.ver, []) ∧
    decode .optType [0b00010000] = .ok (.optTlv16 0 0 0b0000, []) ∧
    decode .op8 [0b00000000] = .error (.illegalOp 0) ∧ decode .op8 [] = .error .noByte ∧
    decode .optType [] = .error .noByte := by
  decide

theorem test_encode_words :
    encode .foff = [0b00010011] ∧ encode .hdrdec = [0b00111001] ∧
    encode (.optEol 1 1) = [0b10100000] ∧ encode (.optNop 0 3) = [0b01100001] ∧
    encode (.optTlv16 1 3 0b1111) = [0b11111111] ∧ encode (.optTlv8 0 1 0b011) = [0b00101011] ∧
    encode (.optTlv4 1 0 0b10) = [0b10000110] ∧ encode (.optTlv2 0 2 0b0) = [0b01000010] := by
  decide

theorem test_fetch_word_runs :
    step (State.reset.withFetchWord 8 0x40) = exec .cksum { State.reset with op := 0x40 } ∧
    holds (step (State.reset.withFetchWord 8 0x21))
      (fun t => t.op == 0x21 && t.status == 0) = true ∧
    holds (step (State.reset.withFetchWord 8 0x80))
      (fun t => t.o.typ == 0x80 && t.r == 1 && t.status == 0) = true :=
  ⟨rfl, by decide, by decide⟩

/-! ### One or two vectors for each operation -/

theorem test_ver : holds (exec .ver (withA 0xAB6F)) (fun t => t.r == 6 && t.status == 0) = true := by
  decide  -- V14

theorem test_ihl : holds (exec .ihl (withA 0xAB6F)) (fun t => t.r == 15 && t.a == 0xAB6F) = true := by
  decide  -- V14

theorem test_flg : holds (exec .flg (withA 0xBABC)) (fun t => t.r == 5) = true := by decide  -- V19

theorem test_foff : holds (exec .foff (withA 0xBABC)) (fun t => t.r == 0x1ABC) = true := by
  decide  -- V19

theorem test_ocpy : holds (exec .ocpy (withA 0x5586)) (fun t => t.r == 1) = true := by decide  -- V22

theorem test_ocls : holds (exec .ocls (withA 0x00E1)) (fun t => t.r == 3) = true := by decide  -- V27

theorem test_onum : holds (exec .onum (withA 0x5586)) (fun t => t.r == 6) = true := by decide  -- V22

theorem test_optenc_drops_excess :
    holds (exec .optenc (withO 0x86 4 [0xAA, 0xBB, 0xCC, 0xDD]))
      (fun t => wireBytes t == [0x86, 0x04, 0xAA, 0xBB] && t.wlen == 4 && t.r == 4) = true := by
  decide  -- V73

theorem test_optenc_refuses_short_value :
    holds (exec .optenc (withO 0x86 5 [0x01, 0x02]))
      (fun t => t.status == 4 && t.wlen == 0 && t.r == 0) = true := by
  decide  -- V78

theorem test_optdec_second_option :
    holds (exec .optdec (withWire [134, 3, 14, 166, 3, 15, 1, 0] 3))
      (fun t => t.o.value == { typ := 166, len := 3, val := [15] } && t.r == 3 && t.a == 3) = true := by
  decide  -- V81

theorem test_optdec_cursor_inside_option :
    holds (exec .optdec (withWire [134, 3, 14, 166, 3, 15, 1, 0] 1))
      (fun t => t.status == 2 && t.r == 0 && t.o == OptReg.empty) = true := by
  decide  -- V89e

theorem test_pktnew :
    holds (exec .pktnew
        { State.reset with
          pkt :=
            { std with
              ver := 6, tos := 0xA5, id := 0xBEEF, flags := 5, foff := 0x1ABC, ttl := 1, proto := 255,
              cksum := 0x1234 }
          nopt := 3 })
      (fun t => t.pkt == std && t.nopt == 0 && t.status == 0) = true := by
  decide  -- V91

theorem test_pktnew_largest_payload :
    holds (exec .pktnew { State.reset with plen := 65515 }) (fun t => t.pkt.tlen == 65535) = true := by
  decide  -- V92

theorem test_withopt :
    holds (exec .withopt (withO 0x86 1 []))
      (fun t => t.nopt == 1 && (optAt t 0).typ == 0x86 && (optAt t 0).len == 1 && t.status == 0) = true := by
  decide  -- V95

theorem test_withopt_full :
    holds (exec .withopt { State.reset with nopt := 40 })
      (fun t => t.nopt == 40 && t.status == 4) = true := by
  decide  -- V94

theorem test_hdrenc_scenario_two :
    holds (exec .hdrenc (withPacket std [⟨0x01, 0, []⟩] [0x00]))
      (fun t => wireBytes t ==
          [0x46, 0x00, 0x00, 0x19, 0x00, 0x00, 0x00, 0x00, 0x40, 0x06, 0x6F, 0xD3, 0x01, 0x02, 0x03,
            0x04, 0x01, 0x02, 0x03, 0x04, 0x01, 0x01, 0x01, 0x00, 0x00] &&
        t.pkt.ihl == 6 && t.pkt.tlen == 25 && t.pkt.cksum == 0x6FD3) = true := by
  decide  -- V2

theorem test_hdrenc_packs_fields :
    holds (exec .hdrenc (withPacket { std with
        tos := 0xA5, id := 0xBEEF, flags := 5, foff := 0x1ABC, ttl := 1, proto := 255 } [] []))
      (fun t => wireBytes t ==
        [0x45, 0xA5, 0x00, 0x14, 0xBE, 0xEF, 0xBA, 0xBC, 0x01, 0xFF, 0x36, 0x8F, 0x01, 0x02, 0x03,
          0x04, 0x01, 0x02, 0x03, 0x04]) = true := by
  decide  -- V39a

theorem test_hdrdec_options_and_payload :
    holds (exec .hdrdec (withWire
        [0x47, 0x00, 0x00, 0x1E, 0x00, 0x00, 0x00, 0x00, 0x40, 0x06, 0xD8, 0x16, 0x01, 0x02, 0x03, 0x04,
          0x01, 0x02, 0x03, 0x04, 0x86, 0x03, 0x0E, 0xA6, 0x03, 0x0F, 0x01, 0x00, 0xDE, 0xAD] 0))
      (fun t => optList t == [⟨0x86, 3, [0x0E]⟩, ⟨0xA6, 3, [0x0F]⟩, ⟨1, 0, []⟩, ⟨0, 0, []⟩] &&
        payload t == [0xDE, 0xAD] && t.pkt.ihl == 7 && t.pkt.cksum == 0xD816 && t.status == 0) = true := by
  decide  -- V52

theorem test_hdrdec_truncated_before_malformed :
    holds (exec .hdrdec (zeroHeader 0x46 [0x01, 0x01, 0x86, 0x09, 0xAA, 0xBB]))
      (fun t => t.status == 2 && t.pkt == Pkt.reset && t.nopt == 0) = true := by
  decide  -- V112

theorem test_cksum_folds_carry :
    holds (exec .cksum (withWire
        [0x45, 0x00, 0x00, 0x73, 0x00, 0x00, 0x40, 0x00, 0x40, 0x11, 0x00, 0x00, 0xC0, 0xA8, 0x00, 0x01,
          0xC0, 0xA8, 0x00, 0xC7] 20)) (fun t => t.r == 0xB861) = true := by
  decide  -- V63

theorem test_cksum_odd_length :
    holds (exec .cksum (withWire [0x12, 0x34, 0x56] 3)) (fun t => t.r == 0x97CB) = true := by
  decide  -- V66

theorem test_opt_eol : holds (exec (.optEol 1 0) (withWire [0x80, 0x09] 0))
    (fun t => t.o.value == ⟨0x80, 0, []⟩ && t.r == 1) = true := by
  decide  -- V89c

theorem test_opt_nop : holds (exec (.optNop 0 0) (withWire [134, 3, 14, 166, 3, 15, 1, 0] 6))
    (fun t => t.o.value == ⟨1, 0, []⟩ && t.r == 1) = true := by
  decide  -- V82

theorem test_opt_tlv16 : holds (exec (.optTlv16 0 0 0b1111) (withWire [0x1F, 0x04, 0xAA, 0xBB] 0))
    (fun t => t.o.value == ⟨0x1F, 4, [0xAA, 0xBB]⟩ && t.r == 4) = true := by
  decide  -- R118

theorem test_opt_tlv8 : holds (exec (.optTlv8 0 0 0b001) (withWire [0x09, 0x02, 0xFF] 0))
    (fun t => t.o.value == ⟨0x09, 2, []⟩ && t.r == 2) = true := by
  decide  -- R118

theorem test_opt_tlv4 : holds (exec (.optTlv4 1 0 0b10) (withWire [0x86, 0x04, 0xAA, 0xBB] 0))
    (fun t => t.o.value == ⟨0x86, 4, [0xAA, 0xBB]⟩ && t.r == 4) = true := by
  decide  -- V89a

theorem test_opt_tlv2 : holds (exec (.optTlv2 0 0 0b1) (withWire [0x03, 0x0E, 0xA6, 0x03] 0))
    (fun t => t.status == 2 && t.r == 0) = true := by
  decide  -- as V89e: length 14, too few bytes

/-! ### The pseudo-operations -/

/-- `newPacket` and `withOptions` of the source's scenario 2, as host events, lead to that packet. -/
theorem test_pseudo_operations :
    (afterEvents (newPacket #v[1, 2, 3, 4] #v[1, 2, 3, 4] [0x00] ++ withOptions [⟨0x01, 0, []⟩])
        State.reset).map (fun t => (t.pkt, optList t, payload t)) =
      some ({ std with tlen := 21 }, [⟨0x01, 0, []⟩], [0x00]) := by
  decide  -- V90, V93

/-! ### Witnesses: the hypotheses of every statement are met, clause by clause, at the boundaries -/

/-- Each row's mask and match has its least and its greatest byte, and no byte below meets two rows. -/
theorem witness_type_byte_rows :
    (0x00 : Byte) &&& 0x1F = 0x00 ∧ (0xE0 : Byte) &&& 0x1F = 0x00 ∧
    (0x01 : Byte) &&& 0x1F = 0x01 ∧ (0xE1 : Byte) &&& 0x1F = 0x01 ∧
    (0x10 : Byte) &&& 0x10 = 0x10 ∧ (0xFF : Byte) &&& 0x10 = 0x10 ∧
    (0x08 : Byte) &&& 0x18 = 0x08 ∧ (0xEF : Byte) &&& 0x18 = 0x08 ∧
    (0x04 : Byte) &&& 0x1C = 0x04 ∧ (0xE7 : Byte) &&& 0x1C = 0x04 ∧
    (0x02 : Byte) &&& 0x1E = 0x02 ∧ (0xE3 : Byte) &&& 0x1E = 0x02 := by
  decide

/-- How many rows a byte meets. -/
def rowsMet (t : Byte) : Nat :=
  ([(0x1F, 0x00), (0x1F, 0x01), (0x10, 0x10), (0x18, 0x08), (0x1C, 0x04), (0x1E, 0x02)].filter
    fun (r : Byte × Byte) => t &&& r.1 = r.2).length

/-- The rows of the type byte exclude each other and leave no number out, whatever the upper bits. -/
theorem witness_type_byte_rows_exclusive :
    ∀ n < 32, rowsMet (BitVec.ofNat 8 n) = 1 ∧ rowsMet (BitVec.ofNat 8 (224 + n)) = 1 := by
  decide

theorem witness_decode_encode :
    decode .op8 [0x10, 0x86] = .ok (.ver, [0x86]) ∧
    decode .optType [0x10, 0x86] = .ok (.optTlv16 0 0 0, [0x86]) := by
  decide

theorem witness_idle : State.reset.host = [] := rfl

theorem witness_op_write_runs :
    (pending (.write .op 0x40)).host = .write .op 0x40 :: [] ∧ 0x40 ≤ 255 ∧
    decode .op8 [BitVec.ofNat 8 0x40] = .ok (.cksum, []) ∧
    decode .op8 [BitVec.ofNat 8 0x10] = .ok (.ver, []) := by
  decide

theorem witness_undefined_op :
    (pending (.write .op 255)).host = .write .op 255 :: [] ∧ 255 ≤ 255 ∧ 255 ∉ Claims.opCodes ∧
    (pending (.write .op 0)).host = .write .op 0 :: [] ∧ 0 ∉ Claims.opCodes := by
  decide

theorem witness_host_write_reads_back :
    (pending (.write (.wire 65534) 255)).host = .write (.wire 65534) 255 :: [] ∧
    (Loc.wire 65534).present = true ∧ 255 ≤ (Loc.wire 65534).limit ∧ Loc.wire 65534 ≠ .op ∧
    Loc.wire 65534 ≠ .status ∧
    (Loc.optVal 39 254).present = true ∧ 0 ≤ (Loc.optVal 39 254).limit ∧
    Loc.plen.present = true ∧ 65515 ≤ Loc.plen.limit ∧ (Loc.wire 0).present = true ∧
    Loc.wire 0 ≠ .wire 65534 := by
  decide

theorem witness_status_write :
    (pending (.write .status 255)).host = .write .status 255 :: [] ∧ 255 ≤ 255 := by
  decide

theorem witness_op_reads_back :
    (pending (.write .op 255)).host = .write .op 255 :: [] ∧ 255 ≤ 255 ∧
    ∃ t, step (pending (.write .op 255)) = .next t ∧ t.status = 5 :=
  ⟨rfl, by decide, _, rfl, by decide⟩

theorem witness_breach_value :
    (pending (.write .nopt 41)).host = .write .nopt 41 :: [] ∧ Loc.nopt.present = true ∧
    Loc.nopt.limit < 41 := by
  decide

theorem witness_breach_write_place :
    (pending (.write (.wire 65535) 0)).host = .write (.wire 65535) 0 :: [] ∧
    (Loc.wire 65535).present = false := by
  decide

theorem witness_breach_read_place :
    (pending (.read (.pay 65515))).host = .read (.pay 65515) :: [] ∧
    (Loc.pay 65515).present = false := by
  decide

theorem witness_breach_read_no_value :
    (pending (.read (.wire 0))).host = .read (.wire 0) :: [] ∧ (Loc.wire 0).present = true ∧
    holdsValue (pending (.read (.wire 0))) (.wire 0) = false := by
  decide

theorem witness_read_value :
    ({ withWire [0x45] 0 with host := [.read (.wire 0)] } : State).host = .read (.wire 0) :: [] ∧
    (Loc.wire 0).present = true ∧
    holdsValue { withWire [0x45] 0 with host := [.read (.wire 0)] } (.wire 0) = true := by
  decide

/-- Well-formed events: the greatest byte of `OP`, a readable byte, and reset. -/
theorem witness_well_formed_event :
    ((pending (.write .op 255)).host = .write .op 255 :: [] ∧ (HostEvent.write .op 255).wf = true) ∧
    ((HostEvent.read (.wire 0)).wf = true ∧ holdsValue (withWire [0x45] 0) (.wire 0) = true) ∧
    HostEvent.reset.wf = true := by
  decide

theorem witness_reset_event : (pending .reset).host = .reset :: [] := rfl

/-- Encodable options: single-byte, and TLV at the least length and the least value. -/
theorem witness_optenc_completes :
    Claims.Encodable (withO 0x80 1 []).o ∧ Claims.Encodable (withO 0x86 2 []).o ∧
    Claims.Encodable (withO 0x86 3 [0x0E]).o := by
  decide

/-- Refused options: length 1, and one value byte short. -/
theorem witness_optenc_refuses :
    ¬ Claims.Encodable (withO 0x86 1 []).o ∧ ¬ Claims.Encodable (withO 0x86 3 []).o := by
  decide

theorem witness_optenc_stores :
    ∃ t, exec .optenc (withO 0x86 3 [0x0E]) = .next t ∧ t.status = 0 ∧ 1 < t.wlen ∧ t.wlen = 3 :=
  ⟨_, rfl, by decide⟩

theorem witness_optdec_beyond_and_end :
    (withWire [0x86] 2).wlen < (withWire [0x86] 2).a.toNat ∧
    (withWire [0x86] 1).a.toNat = (withWire [0x86] 1).wlen ∧
    State.reset.a.toNat = State.reset.wlen := by
  decide

theorem witness_optdec_single :
    (withWire [0x86, 0xE1] 1).a.toNat < (withWire [0x86, 0xE1] 1).wlen ∧
    Claims.IsSingle ((withWire [0x86, 0xE1] 1).wire.byte 1) ∧
    (withWire [0x86, 0xE1] 1).a.toNat = 1 := by
  decide

/-- A TLV option that ends exactly at `wlen`. -/
theorem witness_optdec_tlv_fits :
    (withWire [0x02, 0x02] 0).a.toNat < (withWire [0x02, 0x02] 0).wlen ∧
    ¬ Claims.IsSingle ((withWire [0x02, 0x02] 0).wire.byte (withWire [0x02, 0x02] 0).a.toNat) ∧
    Claims.TlvFits (withWire [0x02, 0x02] 0) := by
  decide

/-- Truncated: the type byte alone, length 1, and one byte missing. -/
theorem witness_optdec_truncated :
    (withWire [0x02] 0).a.toNat < (withWire [0x02] 0).wlen ∧
    ¬ Claims.IsSingle ((withWire [0x02] 0).wire.byte (withWire [0x02] 0).a.toNat) ∧
    ¬ Claims.TlvFits (withWire [0x02] 0) ∧ ¬ Claims.TlvFits (withWire [0x02, 0x01] 0) ∧
    ¬ Claims.TlvFits (withWire [0x02, 0x03] 0) := by
  decide

theorem witness_optdec_runs_row :
    (withWire [0x10] 0).a.toNat < (withWire [0x10] 0).wlen := by
  decide

theorem witness_step_of_optdec :
    ({ withWire [0x10] 0 with host := [.write .op 0x29] } : State).host = .write .op 0x29 :: [] ∧
    (withWire [0x10] 0).a.toNat < (withWire [0x10] 0).wlen ∧
    decode .optType [(withWire [0x10] 0).wire.byte (withWire [0x10] 0).a.toNat] =
      .ok (.optTlv16 0 0 0, []) := by
  decide

theorem witness_tlv_rows :
    Claims.TlvFits (withWire [0x86, 0x04, 0xAA, 0xBB] 0) ∧
    ¬ Claims.TlvFits (withWire [0x86, 0x05, 0xAA, 0xBB] 0) := by
  decide

theorem witness_option_round_trip :
    (¬ Claims.IsSingle (0x86 : Byte) ∧ 2 ≤ (4 : Byte).toNat ∧
      (4 : Byte).toNat - 2 ≤ [(0xAA : Byte), 0xBB, 0xCC].length) ∧
    (¬ Claims.IsSingle (0x02 : Byte) ∧ 2 ≤ (2 : Byte).toNat) ∧ Claims.IsSingle (0xE1 : Byte) ∧
    [(0x86 : Byte), 0x02, 0xFF] ≠ [] ∧
    optDecode [0x86, 0x02, 0xFF] = .ok (some ⟨0x86, 2, []⟩, 2) := by
  decide

theorem witness_pktnew :
    ({ State.reset with plen := 65515 } : State).plen ≤ 65515 ∧ State.reset.plen ≤ 65515 := by
  decide

theorem witness_withopt :
    (State.reset.nopt ≤ 40 ∧ State.reset.nopt < 40) ∧
    ({ State.reset with nopt := 39 } : State).nopt < 40 ∧
    ({ State.reset with nopt := 40 } : State).nopt ≤ 40 ∧
    ({ State.reset with nopt := 40 } : State).nopt = 40 := by
  decide

theorem witness_padding :
    ([] : List Byte).length % 4 = 0 ∧ [(0x01 : Byte)].length % 4 = 1 ∧
    [(0x86 : Byte), 0x02].length % 4 = 2 ∧ [(0x86 : Byte), 0x03, 0x0E].length % 4 = 3 := by
  decide

/-- Packets that encode: no option, and three option bytes with the largest total. -/
theorem witness_hdrenc_completes :
    Claims.EncodablePacket State.reset ∧ Claims.EncodablePacket { State.reset with plen := 65515 } ∧
    Claims.EncodablePacket { withPacket std [⟨0x86, 3, [0x0E]⟩] [] with plen := 65511 } := by
  decide

/-- A Packet with 40 option bytes encodes (V43's size). -/
theorem witness_hdrenc_full_region :
    Claims.EncodablePacket
      (withPacket std [⟨0x86, 38, List.replicate 36 0⟩, ⟨0x01, 0, []⟩, ⟨0x01, 0, []⟩] []) := by
  decide

/-- Packets that do not: an ill-formed option, 41 option bytes, and a total one byte too large. -/
theorem witness_hdrenc_refuses :
    ¬ Claims.EncodablePacket (withPacket std [⟨0x86, 1, []⟩] []) ∧
    ¬ Claims.EncodablePacket (withPacket std [⟨0x87, 41, List.replicate 39 0⟩] []) ∧
    ¬ Claims.EncodablePacket { withPacket std [⟨0x01, 0, []⟩] [] with plen := 65512 } := by
  decide

/-- A successful encoding with options, padding and payload: for every statement about one. -/
theorem witness_hdrenc_succeeds :
    ∃ t, exec .hdrenc (withPacket std [⟨0x86, 3, [0x0E]⟩, ⟨0xA6, 3, [0x0F]⟩] [0xDE, 0xAD]) =
      .next t ∧ t.status = 0 ∧ t.wlen = 30 ∧ t.pkt.ihl = 7 :=
  ⟨_, rfl, by decide⟩

/-- A Packet without an option of number 0, and one with. -/
theorem witness_round_trip_options :
    (∀ o ∈ Claims.listed (withPacket std [⟨0x86, 3, [0x0E]⟩, ⟨0x01, 0, []⟩] []),
      o.typ.toNat % 32 ≠ 0) ∧
    (∃ o ∈ Claims.listed (withPacket std [⟨0x00, 0, []⟩, ⟨0x86, 3, [0x0E]⟩] []),
      o.typ.toNat % 32 = 0) := by
  decide

theorem witness_payload_bytes_differ :
    ∃ t t', exec .hdrenc (withPacket std [] [0x00]) = .next t ∧
      exec .hdrenc { withPacket std [] [0x00] with pay := [(0, 0xFF)] } = .next t' ∧
      t.status = 0 ∧ t'.status = 0 ∧ t.wire ≠ t'.wire :=
  ⟨_, _, rfl, rfl, by decide⟩

theorem witness_checksum_in_field :
    (List.replicate 10 (0xFF : Byte)).length = 10 ∧ ([] : List Byte).length % 2 = 0 ∧
    [(0x01 : Byte), 0x02, 0x03, 0x04].length % 2 = 0 := by
  decide

theorem witness_cksum :
    (withWire [0x12, 0x34, 0x56] 3).a.toNat ≤ (withWire [0x12, 0x34, 0x56] 3).wlen ∧
    (withWire [0x12, 0x34, 0x56] 3).a.toNat = 3 ∧
    (withWire [0x12, 0x34, 0x56] 4).wlen < (withWire [0x12, 0x34, 0x56] 4).a.toNat := by
  decide

/-- A region of 4 bytes at 20 in an input of 26, for the clauses of the option loop. -/
def regionOf (rest : List Byte) : List Byte := List.replicate 20 0 ++ rest

theorem witness_loop_end : 24 ≤ (regionOf [0, 0, 0, 0]).length ∧ 24 ≤ 24 := by decide

theorem witness_loop_single :
    (24 ≤ (regionOf [0xE0, 9, 9, 9]).length ∧ 20 < 24 ∧
      ((regionOf [0xE0, 9, 9, 9]).getD 20 0).toNat % 32 = 0) ∧
    (23 < 24 ∧ ((regionOf [1, 1, 1, 0x21]).getD 23 0).toNat % 32 = 1) := by
  decide

theorem witness_loop_truncated :
    (24 ≤ (regionOf [1, 1, 1, 0x86]).length ∧ 23 < 24 ∧
      1 < ((regionOf [1, 1, 1, 0x86]).getD 23 0).toNat % 32 ∧
      23 + 1 = (regionOf [1, 1, 1, 0x86]).length) ∧
    ((regionOf [0x86, 1, 0, 0]).getD 21 0).toNat < 2 ∧
    (regionOf [0x86, 5, 0, 0]).length < 20 + ((regionOf [0x86, 5, 0, 0]).getD 21 0).toNat := by
  decide

theorem witness_loop_malformed :
    24 ≤ (regionOf [1, 1, 1, 0x86, 2]).length ∧ 23 < 24 ∧
    1 < ((regionOf [1, 1, 1, 0x86, 2]).getD 23 0).toNat % 32 ∧
    23 + 1 < (regionOf [1, 1, 1, 0x86, 2]).length ∧
    2 ≤ ((regionOf [1, 1, 1, 0x86, 2]).getD 24 0).toNat ∧
    23 + ((regionOf [1, 1, 1, 0x86, 2]).getD 24 0).toNat ≤ (regionOf [1, 1, 1, 0x86, 2]).length ∧
    24 < 23 + ((regionOf [1, 1, 1, 0x86, 2]).getD 24 0).toNat := by
  decide

theorem witness_loop_tlv :
    24 ≤ (regionOf [0x86, 4, 0xAA, 0xBB]).length ∧ 20 < 24 ∧
    1 < ((regionOf [0x86, 4, 0xAA, 0xBB]).getD 20 0).toNat % 32 ∧
    20 + 1 < (regionOf [0x86, 4, 0xAA, 0xBB]).length ∧
    2 ≤ ((regionOf [0x86, 4, 0xAA, 0xBB]).getD 21 0).toNat ∧
    20 + ((regionOf [0x86, 4, 0xAA, 0xBB]).getD 21 0).toNat ≤ 24 := by
  decide

theorem witness_parsed_options :
    parseOptions (regionOf [1, 1, 1, 1]) 24 =
      .ok [⟨1, 0, []⟩, ⟨1, 0, []⟩, ⟨1, 0, []⟩, ⟨1, 0, []⟩] := by
  decide

/-- Datagrams that decode: the least, and one with options that fill the header. -/
theorem witness_hdrdec_decodes :
    (20 ≤ (zeroHeader 0x45 []).wlen ∧ 5 ≤ Claims.wireIhl (zeroHeader 0x45 []) ∧
      Claims.wireIhl (zeroHeader 0x45 []) * 4 ≤ (zeroHeader 0x45 []).wlen ∧
      Claims.wireIhl (zeroHeader 0x45 []) = 5) ∧
    (20 ≤ (zeroHeader 0x46 [1, 1, 1, 1]).wlen ∧ 5 ≤ Claims.wireIhl (zeroHeader 0x46 [1, 1, 1, 1]) ∧
      Claims.wireIhl (zeroHeader 0x46 [1, 1, 1, 1]) * 4 ≤ (zeroHeader 0x46 [1, 1, 1, 1]).wlen ∧
      parseOptions
          ((zeroHeader 0x46 [1, 1, 1, 1]).wire.read 0 (zeroHeader 0x46 [1, 1, 1, 1]).wlen)
          (Claims.wireIhl (zeroHeader 0x46 [1, 1, 1, 1]) * 4) =
        .ok [⟨1, 0, []⟩, ⟨1, 0, []⟩, ⟨1, 0, []⟩, ⟨1, 0, []⟩]) := by
  decide

/-- V101, V102, V104: too short, header length below 5, header longer than the input. -/
theorem witness_hdrdec_short_or_malformed :
    (withWire (0x44 :: List.replicate 18 0) 0).wlen < 20 ∧
    (20 ≤ (zeroHeader 0x44 []).wlen ∧ Claims.wireIhl (zeroHeader 0x44 []) < 5) ∧
    (20 ≤ (zeroHeader 0x46 [1, 1, 1]).wlen ∧ 5 ≤ Claims.wireIhl (zeroHeader 0x46 [1, 1, 1]) ∧
      (zeroHeader 0x46 [1, 1, 1]).wlen < Claims.wireIhl (zeroHeader 0x46 [1, 1, 1]) * 4) := by
  decide

/-- V110 and V111: a truncated option, and one that overruns the header. -/
theorem witness_hdrdec_option_errors :
    (20 ≤ (zeroHeader 0x46 [1, 1, 1, 0x86]).wlen ∧
      5 ≤ Claims.wireIhl (zeroHeader 0x46 [1, 1, 1, 0x86]) ∧
      Claims.wireIhl (zeroHeader 0x46 [1, 1, 1, 0x86]) * 4 ≤
        (zeroHeader 0x46 [1, 1, 1, 0x86]).wlen ∧
      parseOptions
          ((zeroHeader 0x46 [1, 1, 1, 0x86]).wire.read 0 (zeroHeader 0x46 [1, 1, 1, 0x86]).wlen)
          (Claims.wireIhl (zeroHeader 0x46 [1, 1, 1, 0x86]) * 4) = .error .truncatedOption) ∧
    parseOptions
        ((zeroHeader 0x46 [1, 1, 1, 0x86, 2]).wire.read 0
          (zeroHeader 0x46 [1, 1, 1, 0x86, 2]).wlen)
        (Claims.wireIhl (zeroHeader 0x46 [1, 1, 1, 0x86, 2]) * 4) =
      .error .malformedOptionsRegion := by
  decide

/-- Two inputs that differ in the version nibble and in the checksum only. -/
theorem witness_unchecked_fields :
    (Memory.byte [(0, 0x65), (10, 0xFF)] 0).toNat % 16 = Claims.wireIhl (zeroHeader 0x45 []) ∧
    ∀ a, 20 ≤ a → Memory.byte [(0, 0x65), (10, 0xFF)] a = (zeroHeader 0x45 []).wire.byte a := by
  refine ⟨by decide, fun a ha => ?_⟩
  have h : (zeroHeader 0x45 []).wire = [(0, 0x45)] := by decide
  have h0 : 0 ≠ a := by omega
  have h10 : 10 ≠ a := by omega
  rw [h]
  simp [Memory.byte, h0, h10]

/-- A failed operation, and one that succeeds without a scalar result. -/
theorem witness_failed_operation :
    (∃ t, startOp { State.reset with op := 0x00 } = .next t ∧ t.status = 5) ∧
    (∃ t, exec .hdrdec State.reset = .next t ∧ t.status ≠ 0) ∧
    ∃ t, exec .pktnew State.reset = .next t ∧ t.status = 0 :=
  ⟨⟨_, rfl, by decide⟩, ⟨_, rfl, by decide⟩, ⟨_, rfl, by decide⟩⟩

/-- Each operation that is shut out of a clause of the write table does something there. -/
theorem witness_write_table :
    (∃ t, exec .optenc (withO 0x01 0 []) = .next t ∧ t.wlen ≠ (withO 0x01 0 []).wlen) ∧
    (∃ t, exec .hdrdec (zeroHeader 0x45 [0x99]) = .next t ∧
      t.plen ≠ (zeroHeader 0x45 [0x99]).plen) ∧
    ∃ t, exec .optdec (withWire [0x86, 0x02] 0) = .next t ∧ t.o ≠ (withWire [0x86, 0x02] 0).o :=
  ⟨⟨_, rfl, by decide⟩, ⟨_, rfl, by decide⟩, ⟨_, rfl, by decide⟩⟩

/-- A legal state from which a step runs an operation that writes a buffer and registers. -/
theorem witness_legal_step :
    ({ zeroHeader 0x46 [0x86, 4, 0xAA, 0xBB] with host := [.write .op 0x39] } : State).Legal ∧
    ∃ t, step { zeroHeader 0x46 [0x86, 4, 0xAA, 0xBB] with host := [.write .op 0x39] } = .next t ∧
      t.status = 0 ∧ t.nopt = 1 := by
  refine ⟨by decide, _, rfl, by decide⟩

end Sys2Proof.Tests
end

section

namespace Sys2Proof.Proofs

open Sys2Proof.Machine

/-- Settles O41: `parseOptions` runs the option loop for `hl - 20` turns, and a turn gives at most one
option (R146). -/
theorem parsedOptionsFitTheList : Obligations.ParsedOptionsFitTheList := by
  intro w hl os h
  unfold parseOptions at h
  obtain ⟨hcount, -⟩ := parseLoop_bounds h
  exact hcount

end Sys2Proof.Proofs
end

section
/-! What one operation can do to the state, said once. The statements on who writes what and the
invariant read their answers off it. -/

namespace Sys2Proof.Proofs

open Sys2Proof.Machine Sys2Proof.Claims

/-- The next states an instruction can answer with (`10_state.md` section 11): an error code alone,
or `OK` with exactly the instruction's result writes. -/
inductive Effect (i : Instr) (s : State) : State → Prop where
  | failed (k : Completion) : Effect i s { s with status := k.code }
  | scalar (v : Half) (hi : i ∉ [.pktnew, .withopt, .hdrenc, .hdrdec]) :
      Effect i s { s with r := v, status := 0 }
  | encodedOption (hi : i = .optenc) (b : List Byte) (hb : b.length ≤ 255) :
      Effect i s
        { s with wire := s.wire.write 0 b, wlen := b.length, r := countHalf b.length, status := 0 }
  | decodedOption (hi : i = .optdec ∨ IsElement i) (o : OptVal) (n : Nat)
      (ho : o.val.length ≤ 253) :
      Effect i s { s with o := o.toReg, r := countHalf n, status := 0 }
  | newPacket (hi : i = .pktnew) (p : Pkt) : Effect i s { s with pkt := p, nopt := 0, status := 0 }
  | appendedOption (hi : i = .withopt) (hn : s.nopt < 40) :
      Effect i s
        { s with opts := s.opts.setIfInBounds s.nopt s.o, nopt := s.nopt + 1, status := 0 }
  | encodedPacket (hi : i = .hdrenc) (bs : List Byte) (n : Nat) (hb : bs.length = n)
      (hn : n ≤ 65535) (ihl : BitVec 4) (tlen ck : Half) :
      Effect i s
        { s with
          wire := s.wire.write 0 bs
          wlen := n
          pkt := { s.pkt with ihl := ihl, tlen := tlen, cksum := ck }
          status := 0 }
  | decodedPacket (hi : i = .hdrdec) (d : Decoded) (hd : hdrDecode (wireBytes s) = .ok d) :
      Effect i s
        { s with
          pkt := d.pkt
          opts := storeOpts 0 d.opts s.opts
          nopt := d.opts.length
          pay := s.pay.write 0 d.pay
          plen := d.pay.length
          status := 0 }

/-- An encoded option has at most 255 bytes, its length byte's maximum (R114). -/
theorem optEncode_length_le {o : OptVal} {b : List Byte} (h : optEncode o = .ok b) :
    b.length ≤ 255 := by
  have hlen := o.len.isLt
  unfold optEncode at h
  repeat' split at h
  all_goals cases h
  · simp
  · simp only [List.length_cons, List.length_take]; omega

theorem decodeElement_effect {i : Instr} {c : Byte} {s t : State}
    (hi : i = .optdec ∨ IsElement i) (h : decodeElement c s = .next t) : Effect i s t := by
  rcases decodeElement_next h with rfl | ⟨o, n, ho, rfl⟩
  · exact .failed .truncatedOption
  · exact .decodedOption hi o n ho

theorem execOptdec_effect {s t : State} (h : execOptdec s = .next t) : Effect .optdec s t := by
  rcases execOptdec_next h with ⟨-, rfl⟩ | ⟨-, rfl⟩ | ⟨-, hd⟩
  · exact .failed .badOperand
  · exact .scalar 0 (by decide)
  · exact decodeElement_effect (.inl rfl) hd

theorem execOptenc_effect {s t : State} (h : execOptenc s = .next t) : Effect .optenc s t := by
  rcases execOptenc_next h with rfl | ⟨b, hb, rfl⟩
  · exact .failed .badOperand
  · exact .encodedOption rfl b (optEncode_length_le hb)

theorem execWithopt_effect {s t : State} (h : execWithopt s = .next t) : Effect .withopt s t := by
  rcases execWithopt_next h with ⟨-, rfl⟩ | ⟨hn, rfl⟩
  · exact .failed .badOperand
  · exact .appendedOption rfl hn

theorem execHdrenc_effect {s t : State} (h : execHdrenc s = .next t) : Effect .hdrenc s t := by
  rcases execHdrenc_next h with rfl | ⟨raw, -, -, hn, rfl⟩
  · exact .failed .badOperand
  · have hlen : (assemble s.pkt (pad raw) (payload s)).bytes.length =
        20 + (pad raw).length + s.plen := by
      rw [assemble_bytes_length, payload, read_length]
    exact .encodedPacket rfl _ _ hlen hn _ _ _

theorem execHdrdec_effect {s t : State} (h : execHdrdec s = .next t) : Effect .hdrdec s t := by
  rcases execHdrdec_next h with ⟨k, -, rfl⟩ | ⟨d, hd, rfl⟩
  · exact .failed k
  · exact .decodedPacket rfl d hd

theorem execCksum_effect {s t : State} (h : execCksum s = .next t) : Effect .cksum s t := by
  rcases execCksum_next h with ⟨-, rfl⟩ | ⟨-, rfl⟩
  · exact .failed .badOperand
  · exact .scalar _ (by decide)

theorem completeScalar_effect {i : Instr} {n : Nat} {v : BitVec n} {s t : State}
    (hi : i ∉ [.pktnew, .withopt, .hdrenc, .hdrdec]) (h : completeScalar v s = .next t) :
    Effect i s t := by
  rw [← Host.Outcome.next.inj h]
  exact .scalar _ hi

/-- Whatever an instruction answers is one of its effects. -/
theorem exec_effect {i : Instr} {s t : State} (h : exec i s = .next t) : Effect i s t := by
  cases i with
  | ver | ihl | flg | foff | ocpy | ocls | onum => exact completeScalar_effect (by decide) h
  | optenc => exact execOptenc_effect h
  | optdec => exact execOptdec_effect h
  | pktnew => rw [complete_next h]; exact .newPacket rfl _
  | withopt => exact execWithopt_effect h
  | hdrenc => exact execHdrenc_effect h
  | hdrdec => exact execHdrdec_effect h
  | cksum => exact execCksum_effect h
  | optEol | optNop | optTlv16 | optTlv8 | optTlv4 | optTlv2 =>
    exact decodeElement_effect (.inr rfl) h

/-- Settles O48: no effect has `A`, `OP` or the pending events among its writes, and the effects
that write `R` belong to other instructions than the four. -/
theorem operationsLeaveOperandsAlone : Obligations.OperationsLeaveOperandsAlone := by
  intro i s t h
  cases exec_effect h with
  | scalar v hi => exact ⟨rfl, rfl, rfl, fun hi' => absurd (by simpa using hi') hi⟩
  | encodedOption hi => exact ⟨rfl, rfl, rfl, by simp [hi]⟩
  | decodedOption hi =>
    refine ⟨rfl, rfl, rfl, ?_⟩
    rintro (rfl | rfl | rfl | rfl) <;> simp [IsElement, Instr.format] at hi
  | failed | newPacket | appendedOption | encodedPacket | decodedPacket =>
    exact ⟨rfl, rfl, rfl, fun _ => rfl⟩

/-- Settles O49: each effect writes only the parts that the table gives to its instructions. -/
theorem operationsWriteOnlyTheirState : Obligations.OperationsWriteOnlyTheirState := by
  intro i s t h
  cases exec_effect h with
  | failed | scalar => simp
  | encodedOption hi | newPacket hi | appendedOption hi | encodedPacket hi | decodedPacket hi =>
    simp [hi]
  | decodedOption hi =>
    exact ⟨fun _ _ => ⟨rfl, fun _ => rfl⟩, fun _ => ⟨rfl, fun _ => rfl⟩,
      fun hdec helem => absurd hi (by simp [hdec, helem]),
      fun _ _ => rfl, fun _ _ _ => rfl, fun _ _ _ => rfl, fun _ => rfl⟩

end Sys2Proof.Proofs
end

section
/-! The invariant of legal states: kept by every host write and by every effect of an operation. -/

namespace Sys2Proof.Proofs

open Sys2Proof.Machine

theorem toReg_legal {o : OptVal} (h : o.val.length ≤ 255) : o.toReg.Legal :=
  ⟨h, cells_wf _ _, cells_within _ _ h⟩

theorem nil_legal (cap : Nat) : Memory.Legal cap 0 [] :=
  ⟨Nat.zero_le _, ⟨.nil, by simp⟩, by simp⟩

theorem optReg_empty_legal : OptReg.empty.Legal := nil_legal 255

/-- A write inside the capacity keeps a buffer legal, whatever the new length is. -/
theorem write_legal {cap len len' : Nat} {m : Memory} (h : m.Legal cap len) (addr : Nat)
    (bs : List Byte) (hlen : len' ≤ cap) (hb : addr + bs.length ≤ cap) :
    (m.write addr bs).Legal cap len' := by
  obtain ⟨-, hwf, hin⟩ := h
  exact ⟨hlen, write_wf hwf addr bs, write_within hin addr bs hb⟩

/-- A list with one entry replaced holds only old entries and the new one. -/
theorem legal_setIfInBounds {v : Vector OptReg 40} {o : OptReg} (k : Nat)
    (hv : ∀ x ∈ v.toList, x.Legal) (ho : o.Legal) :
    ∀ x ∈ (v.setIfInBounds k o).toList, x.Legal := by
  intro x hx
  rw [Vector.toList_setIfInBounds] at hx
  rcases List.mem_or_eq_of_mem_set hx with hold | rfl
  · exact hv x hold
  · exact ho

theorem storeOpts_legal {os : List OptVal} {k : Nat} {v : Vector OptReg 40}
    (hv : ∀ x ∈ v.toList, x.Legal) (hos : ∀ o ∈ os, o.val.length ≤ 255) :
    ∀ x ∈ (storeOpts k os v).toList, x.Legal := by
  induction os generalizing k v with
  | nil => exact hv
  | cons o os ih =>
    obtain ⟨ho, hos'⟩ := List.forall_mem_cons.mp hos
    exact ih (legal_setIfInBounds k hv (toReg_legal ho)) hos'

/-- What `HDRDEC` decodes fits in the list and the payload buffer: the header takes at least 20
bytes and at most 60 (R61, R145, R146). -/
theorem hdrDecode_bounds {w : List Byte} {d : Decoded} (h : hdrDecode w = .ok d) :
    d.opts.length ≤ 40 ∧ (∀ o ∈ d.opts, o.val.length ≤ 255) ∧ d.pay.length + 20 ≤ w.length := by
  rcases hdrDecode_cases w with ⟨-, he⟩ | ⟨-, -, he⟩ | ⟨-, -, -, he⟩ |
    ⟨-, hmin, hfit, ⟨k, -, he⟩ | ⟨os, hos, he⟩⟩ <;> rw [he] at h <;> cases h
  obtain ⟨hcount, hval⟩ := parseLoop_bounds hos
  refine ⟨?_, fun o ho => (hval o ho).trans (by decide), ?_⟩
  · simp only [Config.baseHdr] at hcount ⊢; omega
  · simp only [List.length_drop]; omega

/-- Every effect of an operation keeps the state legal. -/
theorem effect_legal {i : Instr} {s t : State} (hs : s.Legal) (h : Effect i s t) : t.Legal := by
  obtain ⟨ho, hopts, hnopt, hpay, hwire, -⟩ := hs
  have hok : (0 : Byte).toNat ≤ 5 := by decide
  cases h with
  | failed k => exact ⟨ho, hopts, hnopt, hpay, hwire, code_toNat_le k⟩
  | scalar => exact ⟨ho, hopts, hnopt, hpay, hwire, hok⟩
  | encodedOption _ b hb =>
    have hfit : b.length ≤ 65535 := hb.trans (by decide)
    exact ⟨ho, hopts, hnopt, hpay, write_legal hwire 0 b hfit (by simpa using hfit), hok⟩
  | decodedOption _ o n hval =>
    exact ⟨toReg_legal (hval.trans (by decide)), hopts, hnopt, hpay, hwire, hok⟩
  | newPacket => exact ⟨ho, hopts, Nat.zero_le _, hpay, hwire, hok⟩
  | appendedOption _ hn => exact ⟨ho, legal_setIfInBounds _ hopts ho, hn, hpay, hwire, hok⟩
  | encodedPacket _ bs n hb hn =>
    subst hb
    exact ⟨ho, hopts, hnopt, hpay, write_legal hwire 0 bs hn (by simpa using hn), hok⟩
  | decodedPacket _ d hd =>
    obtain ⟨hcount, hval, hlen⟩ := hdrDecode_bounds hd
    have hwlen : (wireBytes s).length = s.wlen := read_length _ _ _
    have hcap : s.wlen ≤ 65535 := hwire.1
    have hfit : d.pay.length ≤ 65515 := by omega
    exact ⟨ho, storeOpts_legal hopts hval, hcount,
      write_legal hpay 0 d.pay hfit (by simpa using hfit), hwire, hok⟩

theorem optAt_legal {s : State} (hs : s.Legal) (k : Nat) : (optAt s k).Legal := by
  obtain ⟨-, hopts, -⟩ := hs
  unfold optAt
  cases hk : s.opts[k]? with
  | none => exact optReg_empty_legal
  | some o => exact hopts o (by simpa using Vector.mem_of_getElem? hk)

theorem modifyOpt_legal {s : State} (hs : s.Legal) (k : Nat) {f : OptReg → OptReg}
    (hf : (optAt s k).Legal → (f (optAt s k)).Legal) : (modifyOpt s k f).Legal := by
  have ⟨ho, hopts, hrest⟩ := hs
  exact ⟨ho, legal_setIfInBounds k hopts (hf (optAt_legal hs k)), hrest⟩

/-- A byte written below its capacity keeps option registers legal (R23). -/
theorem optReg_write_legal {o : OptReg} (ho : o.Legal) {i : Nat} (hi : i < 255) (b : Byte) :
    ({ o with val := o.val.write i [b] } : OptReg).Legal :=
  write_legal ho i [b] ho.1 hi

/-- A host write that fits, to a place that exists, keeps the state legal (R31). -/
theorem putLoc_legal {l : Loc} {v : Nat} {s : State} (hs : s.Legal) (hl : l.present = true)
    (hv : v ≤ l.limit) : (putLoc l v s).Legal := by
  have ⟨ho, hopts, hnopt, hpay, hwire, hstatus⟩ := hs
  cases l with
  | oTyp | oLen => exact ⟨ho, hopts, hnopt, hpay, hwire, hstatus⟩
  | oVlen => exact ⟨⟨hv, ho.2⟩, hopts, hnopt, hpay, hwire, hstatus⟩
  | oVal i =>
    exact ⟨optReg_write_legal ho (by simpa [Loc.present] using hl) _, hopts, hnopt, hpay, hwire,
      hstatus⟩
  | nopt => exact ⟨ho, hopts, hv, hpay, hwire, hstatus⟩
  | optTyp k | optLen k => exact modifyOpt_legal hs k id
  | optVlen k => exact modifyOpt_legal hs k fun h => ⟨hv, h.2⟩
  | optVal k i =>
    have hi : k < 40 ∧ i < 255 := by simpa [Loc.present] using hl
    exact modifyOpt_legal hs k fun h => optReg_write_legal h hi.2 _
  | plen => exact ⟨ho, hopts, hnopt, ⟨hv, hpay.2⟩, hwire, hstatus⟩
  | pay i =>
    have hi : i < 65515 := by simpa [Loc.present] using hl
    exact ⟨ho, hopts, hnopt, write_legal hpay i _ hpay.1 hi, hwire, hstatus⟩
  | wlen => exact ⟨ho, hopts, hnopt, hpay, ⟨hv, hwire.2⟩, hstatus⟩
  | wire i =>
    have hi : i < 65535 := by simpa [Loc.present] using hl
    exact ⟨ho, hopts, hnopt, hpay, write_legal hwire i _ hwire.1 hi, hstatus⟩
  | op | status | a | r | ver | ihl | tos | tlen | id | flags | foff | ttl | proto | cksum
  | src | dst => exact hs

theorem startOp_legal {s t : State} (hs : s.Legal) (h : startOp s = .next t) : t.Legal := by
  rcases startOp_cases s with ⟨i, -, hexec⟩ | ⟨e, -, hill⟩
  · exact effect_legal hs (exec_effect (hexec ▸ h))
  · obtain ⟨ho, hopts, hnopt, hpay, hwire, -⟩ := hs
    rw [hill] at h
    rw [← Host.Outcome.next.inj h]
    exact ⟨ho, hopts, hnopt, hpay, hwire, code_toNat_le .illegalOp⟩

/-- The reset state is legal: every length is 0 and no buffer lists a byte (R32, R191). -/
theorem reset_legal : State.reset.Legal := by
  refine ⟨optReg_empty_legal, fun o ho => ?_, by decide, nil_legal _, nil_legal _, by decide⟩
  have : o = OptReg.empty := by simpa using ho
  exact this ▸ optReg_empty_legal

/-- Settles O51, by what a step can do: nothing, a plain host access, an operation, or a reset. -/
theorem stepKeepsLegalStates : Obligations.StepKeepsLegalStates := by
  intro s t hs h
  rcases step_next h with ⟨-, rfl⟩ | ⟨e, rest, -, hrun⟩
  · exact hs
  · have hs' : ({ s with host := rest } : State).Legal := hs
    rcases runEvent_next hrun with
      ⟨l, v, -, hl, hv, ⟨-, rfl⟩ | ⟨-, hstart⟩⟩ | ⟨l, -, rfl⟩ | ⟨-, rfl⟩
    · exact putLoc_legal hs' hl hv
    · exact startOp_legal (putLoc_legal hs' hl hv) hstart
    · exact hs'
    · exact reset_legal

end Sys2Proof.Proofs
end

section
/-! What a step does with each host event, and what a plain host write leaves at every place. -/

namespace Sys2Proof.Proofs

open Sys2Proof.Machine

theorem step_cons {s : State} {e : HostEvent} {rest : List HostEvent} (hs : s.host = e :: rest) :
    step s = runEvent e { s with host := rest } := by
  simp [step, hs]

/-- A host write that fits, to a place that exists, lands; one to `OP` then starts the operation
(R28, R31). -/
theorem step_write {s : State} {l : Loc} {v : Nat} {rest : List HostEvent}
    (hs : s.host = .write l v :: rest) (hl : l.present = true) (hv : v ≤ l.limit) :
    step s =
      if l = .op then startOp (putLoc l v { s with host := rest })
      else .next (putLoc l v { s with host := rest }) := by
  simp [step_cons hs, runEvent, hostWrite, hl, hv]

theorem step_write_op {s : State} {v : Nat} {rest : List HostEvent}
    (hs : s.host = .write .op v :: rest) (hv : v ≤ 255) :
    step s = startOp { s with host := rest, op := BitVec.ofNat 8 v } := by
  rw [step_write hs rfl hv, if_pos rfl]
  rfl

theorem step_write_of_ne {s : State} {l : Loc} {v : Nat} {rest : List HostEvent}
    (hs : s.host = .write l v :: rest) (hl : l.present = true) (hv : v ≤ l.limit) (hop : l ≠ .op) :
    step s = .next (putLoc l v { s with host := rest }) := by
  rw [step_write hs hl hv, if_neg hop]

theorem step_read {s : State} {l : Loc} {rest : List HostEvent} (hs : s.host = .read l :: rest) :
    step s = hostRead l { s with host := rest } :=
  step_cons hs

theorem startOp_of_decodeOp {s : State} {i : Instr} (h : decodeOp s.op = .ok i) :
    startOp s = exec i s := by
  simp [startOp, h]

/-- Where a value is does not depend on the pending events. -/
theorem holdsValue_host (s : State) (rest : List HostEvent) (l : Loc) :
    holdsValue { s with host := rest } l = holdsValue s l := by
  cases l <;> rfl

/-! ### A plain write is read back -/

theorem optAt_modifyOpt_same {s : State} {k : Nat} (hk : k < 40) (f : OptReg → OptReg) :
    optAt (modifyOpt s k f) k = f (optAt s k) := by
  simp [optAt, hk]

theorem optAt_modifyOpt_of_ne {s : State} {k j : Nat} (h : j ≠ k) (f : OptReg → OptReg) :
    optAt (modifyOpt s k f) j = optAt s j := by
  simp [optAt, Vector.getElem?_setIfInBounds_ne (Ne.symm h)]

/-- A projection that a change of `OPTS[k]` keeps is kept at every entry. -/
theorem optAt_modifyOpt_proj {α : Type} {s : State} {k j : Nat} {f : OptReg → OptReg}
    (g : OptReg → α) (h : j = k → g (f (optAt s k)) = g (optAt s k)) :
    g (optAt (modifyOpt s k f) j) = g (optAt s j) := by
  by_cases hj : j = k
  · subst hj
    by_cases hk : j < 40
    · rw [optAt_modifyOpt_same hk, h rfl]
    · simp [optAt, hk]
  · rw [optAt_modifyOpt_of_ne hj]

theorem byte_write_one_same (m : Memory) (i : Nat) (b : Byte) : (m.write i [b]).byte i = b := by
  simp [byte_write]

theorem byte_write_one_of_ne (m : Memory) {i j : Nat} (h : j ≠ i) (b : Byte) :
    (m.write i [b]).byte j = m.byte j :=
  byte_write_outside m i [b] j (by simp only [List.length_singleton]; omega)

theorem byte_ofNat_toNat {v : Nat} (h : v ≤ 255) : (BitVec.ofNat 8 v).toNat = v :=
  Nat.mod_eq_of_lt (Nat.lt_succ_of_le h)

/-- The place a write of a fitting value went to holds that value (R31, R45). -/
theorem locValue_putLoc_same {l : Loc} {v : Nat} (s : State) (hl : l.present = true)
    (hv : v ≤ l.limit) (hstatus : l ≠ .status) : locValue (putLoc l v s) l = v := by
  cases l with
  | status => exact absurd rfl hstatus
  | oVlen | nopt | plen | wlen => rfl
  | optVlen k =>
    have hk : k < 40 := by simpa [Loc.present] using hl
    simp [locValue, putLoc, optAt_modifyOpt_same hk]
  | optTyp k | optLen k =>
    have hk : k < 40 := by simpa [Loc.present] using hl
    simpa [locValue, putLoc, optAt_modifyOpt_same hk] using byte_ofNat_toNat hv
  | optVal k i =>
    have hk : k < 40 ∧ i < 255 := by simpa [Loc.present] using hl
    simpa [locValue, putLoc, optAt_modifyOpt_same hk.1, byte_write_one_same]
      using byte_ofNat_toNat hv
  | src i | dst i =>
    have hi : i < 4 := by simpa [Loc.present] using hl
    simpa [locValue, putLoc, hi] using byte_ofNat_toNat hv
  | oVal | pay | wire =>
    simpa [locValue, putLoc, byte_write_one_same] using byte_ofNat_toNat hv
  | op | a | r | ver | ihl | tos | tlen | id | flags | foff | ttl | proto | cksum | oTyp | oLen =>
    exact Nat.mod_eq_of_lt (Nat.lt_succ_of_le hv)

/-- A change of `OPTS[k]` is seen at no place but the fields of that entry it changes. -/
theorem locValue_modifyOpt {s : State} {k : Nat} {f : OptReg → OptReg} {l : Loc}
    (htyp : l = .optTyp k → (f (optAt s k)).typ = (optAt s k).typ)
    (hlen : l = .optLen k → (f (optAt s k)).len = (optAt s k).len)
    (hvlen : l = .optVlen k → (f (optAt s k)).vlen = (optAt s k).vlen)
    (hval : ∀ i, l = .optVal k i → (f (optAt s k)).val.byte i = (optAt s k).val.byte i) :
    locValue (modifyOpt s k f) l = locValue s l := by
  cases l with
  | optTyp j =>
    exact congrArg BitVec.toNat (optAt_modifyOpt_proj OptReg.typ fun h => htyp (h ▸ rfl))
  | optLen j =>
    exact congrArg BitVec.toNat (optAt_modifyOpt_proj OptReg.len fun h => hlen (h ▸ rfl))
  | optVlen j => exact optAt_modifyOpt_proj OptReg.vlen fun h => hvlen (h ▸ rfl)
  | optVal j i =>
    exact congrArg BitVec.toNat
      (optAt_modifyOpt_proj (fun o => o.val.byte i) fun h => hval i (h ▸ rfl))
  | _ => rfl

/-- A write leaves every other place alone (R31, R45; log 5). -/
theorem locValue_putLoc_of_ne {l l' : Loc} (v : Nat) (s : State) (h : l' ≠ l) :
    locValue (putLoc l v s) l' = locValue s l' := by
  cases l with
  | optTyp k => exact locValue_modifyOpt (absurd · h) (fun _ => rfl) (fun _ => rfl) fun _ _ => rfl
  | optLen k => exact locValue_modifyOpt (fun _ => rfl) (absurd · h) (fun _ => rfl) fun _ _ => rfl
  | optVlen k => exact locValue_modifyOpt (fun _ => rfl) (fun _ => rfl) (absurd · h) fun _ _ => rfl
  | optVal k i =>
    refine locValue_modifyOpt (fun _ => rfl) (fun _ => rfl) (fun _ => rfl) fun j hj => ?_
    exact byte_write_one_of_ne _ (ne_of_apply_ne (Loc.optVal k) (hj ▸ h)) _
  | src i =>
    cases l' with
    | src j =>
      have hij : i ≠ j := (ne_of_apply_ne Loc.src h).symm
      simp [locValue, putLoc, Vector.getElem?_setIfInBounds_ne hij]
    | _ => rfl
  | dst i =>
    cases l' with
    | dst j =>
      have hij : i ≠ j := (ne_of_apply_ne Loc.dst h).symm
      simp [locValue, putLoc, Vector.getElem?_setIfInBounds_ne hij]
    | _ => rfl
  | oVal i =>
    cases l' with
    | oVal j =>
      exact congrArg BitVec.toNat (byte_write_one_of_ne _ (ne_of_apply_ne Loc.oVal h) _)
    | _ => rfl
  | pay i =>
    cases l' with
    | pay j =>
      exact congrArg BitVec.toNat (byte_write_one_of_ne _ (ne_of_apply_ne Loc.pay h) _)
    | _ => rfl
  | wire i =>
    cases l' with
    | wire j =>
      exact congrArg BitVec.toNat (byte_write_one_of_ne _ (ne_of_apply_ne Loc.wire h) _)
    | _ => rfl
  | op | status | a | r | ver | ihl | tos | tlen | id | flags | foff | ttl | proto | cksum
  | oTyp | oLen | oVlen | nopt | plen | wlen =>
    cases l' <;> first | rfl | exact absurd rfl h

/-- The value at a place is not in the pending events. -/
theorem locValue_host (s : State) (rest : List HostEvent) (l : Loc) :
    locValue { s with host := rest } l = locValue s l := by
  cases l <;> rfl

/-- Settles O8: the write lands by `step_write_of_ne`, and a place is its own value and no other. -/
theorem hostWriteReadsBack : Obligations.HostWriteReadsBack := by
  intro s l v rest hs hl hv hop hstatus
  refine ⟨_, step_write_of_ne hs hl hv hop, putLoc_host l v _, locValue_putLoc_same _ hl hv hstatus,
    fun l' _ hne => ?_⟩
  rw [locValue_putLoc_of_ne _ _ hne, locValue_host]

/-- Settles O9: `putLoc` at `STATUS` is the identity. -/
theorem hostWriteToStatusIgnored : Obligations.HostWriteToStatusIgnored := by
  intro s v rest hs hv
  exact step_write_of_ne hs rfl hv (by decide)

/-- Settles O5, by the first branch of `step`. -/
theorem idleBlockChangesNothing : Obligations.IdleBlockChangesNothing := by
  intro s hs
  simp [step, hs]

/-- Settles O11, a clause for each branch of `hostWrite` and `hostRead`. -/
theorem hostBreachesStopByName : Obligations.HostBreachesStopByName := by
  intro s l v rest
  refine ⟨fun hs hl hv => ?_, fun hs hl => ?_, fun hs hl => ?_, fun hs hl hno => ?_,
    fun hs hl hyes => ?_⟩
  · simp [step_cons hs, runEvent, hostWrite, hl, Nat.not_le_of_lt hv]
  · simp [step_cons hs, runEvent, hostWrite, hl]
  · simp [step_read hs, hostRead, hl]
  · simp [step_read hs, hostRead, hl, holdsValue_host, hno]
  · simp [step_read hs, hostRead, hl, holdsValue_host, hyes]

/-! ### A write to `OP` -/

theorem decode_op8_ok {b : Byte} {i : Instr} (h : decode .op8 [b] = .ok (i, [])) :
    decodeOp b = .ok i := by
  cases hd : decodeOp b with
  | ok j => simpa [decode, hd] using h
  | error e => simp [decode, hd] at h

/-- Settles O6: the write puts the code into `OP`, and `startOp` decodes it from there. -/
theorem opWriteRunsDecodedOperation : Obligations.OpWriteRunsDecodedOperation := by
  intro s v rest i hs hv hdec
  rw [step_write_op hs hv]
  exact startOp_of_decodeOp (decode_op8_ok hdec)

/-- What starting an operation leaves alone: it never writes `OP` or the pending events (R28). -/
theorem startOp_op_host {s t : State} (h : startOp s = .next t) :
    t.op = s.op ∧ t.host = s.host := by
  rcases startOp_cases s with ⟨i, -, hexec⟩ | ⟨e, -, hill⟩
  · obtain ⟨-, hop, hhost, -⟩ := operationsLeaveOperandsAlone i s t (hexec ▸ h)
    exact ⟨hop, hhost⟩
  · rw [hill] at h
    rw [← Host.Outcome.next.inj h]
    exact ⟨rfl, rfl⟩

/-- Settles O10: the write puts the byte into `OP`, and the operation it starts keeps it. -/
theorem opReadsBackLastWrite : Obligations.OpReadsBackLastWrite := by
  intro s t v rest hs hv h
  rw [step_write_op hs hv] at h
  obtain ⟨hop, -⟩ := startOp_op_host h
  have hval : locValue t .op = v := by
    rw [locValue, hop]
    exact byte_ofNat_toNat hv
  simp [hostValue, Loc.present, holdsValue, hval]

/-! ### Every operation answers -/

theorem ite_answers {c : Prop} [Decidable c] {x y : Result} (hx : ∃ t, x = .next t)
    (hy : ∃ t, y = .next t) : ∃ t, (if c then x else y) = .next t := by
  split
  · exact hx
  · exact hy

theorem orRaise_answers {α : Type} (x : Except Completion α) (s : State) {f : α → Result}
    (hf : ∀ v, ∃ t, f v = .next t) : ∃ t, orRaise x s f = .next t := by
  cases x with
  | error k => exact ⟨_, raise_eq k s⟩
  | ok v => exact hf v

theorem storeDecoded_answers (s : State) (d : Option OptVal × Nat) :
    ∃ t, storeDecoded s d = .next t := by
  obtain ⟨_ | o, n⟩ := d <;> exact ⟨_, rfl⟩

/-- No instruction stops the machine: errors are completion codes (R179, R180, R200). -/
theorem exec_answers (i : Instr) (s : State) : ∃ t, exec i s = .next t := by
  cases i with
  | ver | ihl | flg | foff | ocpy | ocls | onum => exact ⟨_, completeScalar_eq _ s⟩
  | optenc | hdrenc | hdrdec => exact orRaise_answers _ s fun v => ⟨_, complete_eq _⟩
  | optdec => exact ite_answers ⟨_, raise_eq _ s⟩ (orRaise_answers _ s (storeDecoded_answers s))
  | pktnew => exact ⟨_, complete_eq _⟩
  | withopt | cksum => exact ite_answers ⟨_, raise_eq _ s⟩ ⟨_, complete_eq _⟩
  | optEol | optNop | optTlv16 | optTlv8 | optTlv4 | optTlv2 =>
    exact orRaise_answers _ s (storeDecoded_answers s)

theorem startOp_answers (s : State) : ∃ t, startOp s = .next t := by
  rcases startOp_cases s with ⟨i, -, hexec⟩ | ⟨e, -, hill⟩
  · exact hexec ▸ exec_answers i s
  · exact ⟨_, hill⟩

/-- Settles O12, by the kind of event: a write that fits lands, and the operation it may start
answers; a read of a value that is there changes nothing. -/
theorem wellFormedEventsNeverStop : Obligations.WellFormedEventsNeverStop := by
  intro s e rest hs hwf hread
  cases e with
  | write l v =>
    obtain ⟨hl, hv⟩ : l.present = true ∧ v ≤ l.limit := by simpa [HostEvent.wf] using hwf
    by_cases hop : l = .op
    · subst hop
      obtain ⟨t, ht⟩ := startOp_answers { s with host := rest, op := BitVec.ofNat 8 v }
      exact ⟨t, (step_write_op hs hv).trans ht, .inr (startOp_op_host ht).2⟩
    · exact ⟨_, step_write_of_ne hs hl hv hop, .inr (putLoc_host l v _)⟩
  | read l =>
    have hread' : hostRead l { s with host := rest } = .next { s with host := rest } := by
      simp [hostRead, holdsValue_host, hread l rfl, show l.present = true from hwf]
    exact ⟨_, (step_read hs).trans hread', .inr rfl⟩
  | reset => exact ⟨_, step_cons hs, .inl rfl⟩

/-! ### Single operations -/

/-- The row of a type byte has format `OPTTYPE` and that byte as its encoding (R70). -/
theorem decodeOptType_spec (t : Byte) :
    (decodeOptType t).format = .optType ∧ encodeByte (decodeOptType t) = t := by
  revert t
  decide

/-- The row of a type byte is the option decoder on that byte (R70, R118; log 4). -/
theorem exec_decodeOptType (t : Byte) (s : State) :
    exec (decodeOptType t) s = decodeElement t s := by
  obtain ⟨hformat, hbyte⟩ := decodeOptType_spec t
  rw [exec_optType hformat, hbyte]

/-- Settles O23: the write starts `OPTDEC`, which is the option decoder on the byte at the cursor,
and so is that byte's row. -/
theorem stepOfOptdecRunsTheTypeByteRow : Obligations.StepOfOptdecRunsTheTypeByteRow := by
  intro s rest i hs ha hdec
  obtain rfl : decodeOptType (s.wire.byte s.a.toNat) = i := by simpa [decode] using hdec
  rw [step_write_op hs (by decide), exec_decodeOptType]
  exact execOptdec_eq { s with host := rest, op := 0x29 } ha

/-- `hdrEncode` does not read the three registers that `HDRENC` recomputes (R22, R140). -/
theorem hdrEncode_recomputed (p : Pkt) (x : BitVec 4) (y z : Half) (os : List OptVal)
    (pay : List Byte) :
    hdrEncode { p with ihl := x, tlen := y, cksum := z } os pay = hdrEncode p os pay := rfl

/-- `hdrEncode` fails only as `BadOperand`, so not with code 0 (R142). -/
theorem hdrEncode_error {p : Pkt} {os : List OptVal} {pay : List Byte} {k : Completion}
    (h : hdrEncode p os pay = .error k) : k = .badOperand := by
  rcases hdrEncode_cases p os pay with ⟨raw, -, -, -, he⟩ | ⟨he, -⟩ <;> rw [he] at h <;> cases h
  rfl

theorem execHdrenc_of_ok {s : State} {e : Encoded}
    (he : hdrEncode s.pkt (optList s) (payload s) = .ok e) :
    execHdrenc s = complete
      { s with
        wire := s.wire.write 0 e.bytes
        wlen := e.bytes.length
        pkt := { s.pkt with ihl := e.ihl, tlen := e.tlen, cksum := e.ck } } := by
  rw [execHdrenc, he, orRaise_ok]

/-- Settles O34: the encoding is the same by `hdrEncode_recomputed`, and the result writes cover the
three registers. -/
theorem hdrencIgnoresRecomputedRegisters : Obligations.HdrencIgnoresRecomputedRegisters := by
  intro s t x y z h hok
  rcases orRaise_next h with ⟨k, hk, rfl⟩ | ⟨e, he, hc⟩
  · obtain rfl := hdrEncode_error hk
    cases hok
  · have he' := (hdrEncode_recomputed s.pkt x y z (optList s) (payload s)).trans he
    have hrun := execHdrenc_of_ok
      (s := { s with pkt := { s.pkt with ihl := x, tlen := y, cksum := z } }) he'
    exact hrun.trans hc

/-- Settles O28: `WITHOPT` has one test, on the count of the list. -/
theorem withoptAppendsOrRefuses : Obligations.WithoptAppendsOrRefuses := by
  refine ⟨rfl, fun s _ => ⟨fun hfull => ?_, fun hroom => ⟨s.opts.setIfInBounds s.nopt s.o, ?_, ?_,
    fun k hk => Vector.getElem?_setIfInBounds_ne (Ne.symm hk)⟩⟩⟩
  · exact if_pos (Nat.le_of_eq hfull.symm)
  · exact if_neg (Nat.not_le_of_lt hroom)
  · simp [hroom]

/-- Settles O14: the table field by field, and vector V40 by running `HDRENC`. -/
theorem resetValuesAsTabled : Obligations.ResetValuesAsTabled := by
  refine ⟨rfl, rfl, rfl, rfl, rfl, rfl, rfl, rfl, rfl, rfl, _, rfl, rfl, ?_⟩
  decide

end Sys2Proof.Proofs
end

section
/-! The datagram that a successful `HDRENC` writes: its options bytes in the claims' own terms, and
where its parts stand in `WIRE`. -/

namespace Sys2Proof.Proofs

open Sys2Proof.Machine Sys2Proof.Claims

/-- An option in registers encodes exactly when it is single-byte or its count covers the declared
length, and then to its bytes on the wire (R114, R115). -/
theorem optEncode_value_ok_iff {o : OptReg} {b : List Byte} :
    optEncode o.value = .ok b ↔ Claims.Encodable o ∧ b = optBytes o := by
  by_cases hsingle : o.typ.toNat % 32 ≤ 1
  · rw [optEncode_single hsingle]
    simp [Claims.Encodable, optBytes, hsingle, eq_comm]
  · have htlv : 1 < o.value.typ.toNat % 32 := Nat.lt_of_not_le hsingle
    by_cases hfit : 2 ≤ o.len.toNat ∧ o.len.toNat - 2 ≤ o.vlen
    · have hread : o.value.val.take (o.len.toNat - 2) = o.val.read 0 (o.len.toNat - 2) := by
        rw [value_val, read_take, Nat.min_eq_left hfit.2]
      rw [optEncode_tlv htlv hfit.1 (by simpa using hfit.2), value_len, hread]
      simp [Claims.Encodable, optBytes, hsingle, hfit, eq_comm]
    · have hshort : o.value.len.toNat < 2 ∨ o.value.val.length < o.value.len.toNat - 2 := by
        rw [value_len, value_val_length]; omega
      rw [optEncode_refused htlv hshort]
      exact ⟨nofun, fun ⟨henc, _⟩ => absurd henc (not_or.mpr ⟨hsingle, hfit⟩)⟩

/-- A list encodes exactly when its first option and the rest do, to their bytes in order (R140). -/
theorem encodeOptions_cons_ok_iff {o : OptVal} {os : List OptVal} {raw : List Byte} :
    encodeOptions (o :: os) = .ok raw ↔
      ∃ b bs, optEncode o = .ok b ∧ encodeOptions os = .ok bs ∧ raw = b ++ bs := by
  rw [encodeOptions]
  cases optEncode o with
  | error k => simp
  | ok b =>
    cases encodeOptions os with
    | error k => simp
    | ok bs => simp [eq_comm]

/-- A list of options in registers encodes exactly when each does, to their bytes in order (R140). -/
theorem encodeOptions_value_ok_iff {os : List OptReg} {raw : List Byte} :
    encodeOptions (os.map OptReg.value) = .ok raw ↔
      (∀ o ∈ os, Claims.Encodable o) ∧ raw = os.flatMap optBytes := by
  induction os generalizing raw with
  | nil => simp [encodeOptions, eq_comm]
  | cons o os ih =>
    rw [List.map_cons, encodeOptions_cons_ok_iff, List.forall_mem_cons, List.flatMap_cons]
    constructor
    · rintro ⟨b, bs, hb, hbs, rfl⟩
      obtain ⟨ho, rfl⟩ := optEncode_value_ok_iff.mp hb
      obtain ⟨hos, rfl⟩ := ih.mp hbs
      exact ⟨⟨ho, hos⟩, rfl⟩
    · rintro ⟨⟨ho, hos⟩, rfl⟩
      exact ⟨_, _, optEncode_value_ok_iff.mpr ⟨ho, rfl⟩, ih.mpr ⟨hos, rfl⟩, rfl⟩

/-- Padding appends bytes that depend on the length only (R141). -/
theorem pad_eq_append_padding (ob : List Byte) : pad ob = ob ++ padding ob.length := by
  have hlt : ob.length % 4 < 4 := Nat.mod_lt _ (by decide)
  unfold pad padding
  interval_cases ob.length % 4 <;> simp

/-- A Packet that `HDRENC` accepts is encodable, and the state it leaves holds the datagram
assembled from the claimed region (R140, R143). -/
theorem execHdrenc_next_of_ok {s t : State} (h : execHdrenc s = .next t) (hok : t.status = 0) :
    EncodablePacket s ∧
    t =
      { s with
        wire := s.wire.write 0 (assemble s.pkt (region s) (payload s)).bytes
        wlen := 20 + (region s).length + s.plen
        pkt :=
          { s.pkt with
            ihl := (assemble s.pkt (region s) (payload s)).ihl
            tlen := (assemble s.pkt (region s) (payload s)).tlen
            cksum := (assemble s.pkt (region s) (payload s)).ck }
        status := 0 } := by
  rcases execHdrenc_next h with rfl | ⟨raw, hraw, hregion, htotal, ht⟩
  · cases hok
  · obtain ⟨henc, rfl⟩ := encodeOptions_value_ok_iff.mp hraw
    rw [pad_eq_append_padding] at hregion htotal ht
    exact ⟨⟨henc, hregion, htotal⟩, ht⟩

/-- The datagram is header, options region and payload, in this order (R60, R140). -/
theorem assemble_bytes (p : Pkt) (ob pay : List Byte) :
    (assemble p ob pay).bytes =
      fixedHeader p (assemble p ob pay).ihl (assemble p ob pay).tlen (assemble p ob pay).ck ++
        ob ++ pay := rfl

/-- A byte of the options region stands 20 after its place in the region (R60). -/
theorem assemble_bytes_getD_region (p : Pkt) (ob pay : List Byte) {i : Nat} (hi : i < ob.length) :
    (assemble p ob pay).bytes.getD (20 + i) 0 = ob.getD i 0 := by
  rw [assemble_bytes, List.append_assoc, List.getD_append_right _ _ _ _ (by simp),
    fixedHeader_length, Nat.add_sub_cancel_left, List.getD_append _ _ _ _ hi]

/-- A byte of the payload stands after the header and the options region (R60). -/
theorem assemble_bytes_getD_payload (p : Pkt) (ob pay : List Byte) (i : Nat) :
    (assemble p ob pay).bytes.getD (20 + ob.length + i) 0 = pay.getD i 0 := by
  rw [assemble_bytes, List.getD_append_right _ _ _ _ (by simp), List.length_append,
    fixedHeader_length, Nat.add_sub_cancel_left]

/-- A byte inside a sequence written from address 0 on is the sequence's byte. -/
theorem byte_write_zero_inside (m : Memory) {bs : List Byte} {a : Nat} (ha : a < bs.length) :
    (m.write 0 bs).byte a = bs.getD a 0 := by
  rw [byte_write, if_pos ⟨Nat.zero_le a, by omega⟩, Nat.sub_zero]

/-- Settles O31: by `execHdrenc_next_of_ok` the only writes to the buffers are the assembled datagram
from address 0 on and its length, so each byte is that of the datagram or the old one. -/
theorem hdrencStoresItsDatagramOnly : Obligations.HdrencStoresItsDatagramOnly := by
  intro s t h hok
  obtain ⟨-, rfl⟩ := execHdrenc_next_of_ok h hok
  have hlen : (assemble s.pkt (region s) (payload s)).bytes.length =
      20 + (region s).length + s.plen := by
    rw [assemble_bytes_length, payload, read_length]
  refine ⟨fun i hi => ?_, fun i hi => ?_, rfl, fun a ha => ?_, fun _ => rfl⟩
  · rw [byte_write_zero_inside _ (by omega), assemble_bytes_getD_region _ _ _ hi]
  · rw [byte_write_zero_inside _ (by omega), assemble_bytes_getD_payload, payload, read_getD,
      if_pos hi, Nat.zero_add]
  · exact byte_write_outside _ _ _ _ (.inr (by simpa [hlen] using ha))

end Sys2Proof.Proofs
end

section
/-! The decoder and the encoder of both formats, and what the rows of format `OPTTYPE` leave in the
state (`30_encoding.md` R62 to R76). -/

namespace Sys2Proof.Proofs

open Sys2Proof.Machine Sys2Proof.Claims Sys2Proof.Laws

/-! ### Decoding and encoding agree -/

/-- The encoded byte of every instruction decodes to it, in its own format (R70, R75). -/
theorem byteRoundTrip (i : Instr) : ByteRoundTrip.Statement i := by
  cases i with
  | ver => exact ByteRoundTrip.ver
  | ihl => exact ByteRoundTrip.ihl
  | flg => exact ByteRoundTrip.flg
  | foff => exact ByteRoundTrip.foff
  | ocpy => exact ByteRoundTrip.ocpy
  | ocls => exact ByteRoundTrip.ocls
  | onum => exact ByteRoundTrip.onum
  | optenc => exact ByteRoundTrip.optenc
  | optdec => exact ByteRoundTrip.optdec
  | pktnew => exact ByteRoundTrip.pktnew
  | withopt => exact ByteRoundTrip.withopt
  | hdrenc => exact ByteRoundTrip.hdrenc
  | hdrdec => exact ByteRoundTrip.hdrdec
  | cksum => exact ByteRoundTrip.cksum
  | optEol c k => exact ByteRoundTrip.optEol c k
  | optNop c k => exact ByteRoundTrip.optNop c k
  | optTlv16 c k n => exact ByteRoundTrip.optTlv16 c k n
  | optTlv8 c k n => exact ByteRoundTrip.optTlv8 c k n
  | optTlv4 c k n => exact ByteRoundTrip.optTlv4 c k n
  | optTlv2 c k n => exact ByteRoundTrip.optTlv2 c k n

theorem decodeOp_encodeByte {i : Instr} (h : i.format = .op8) : decodeOp (encodeByte i) = .ok i :=
  (byteRoundTrip i).1 h

theorem decodeOptType_encodeByte {i : Instr} (h : i.format = .optType) :
    decodeOptType (encodeByte i) = i :=
  (byteRoundTrip i).2 h

/-- Decoding reads the first byte only and leaves the bytes after it (R70, R75). -/
theorem decode_encode (i : Instr) (rest : List Byte) :
    decode i.format (encode i ++ rest) = .ok (i, rest) := by
  rw [encode, List.singleton_append]
  cases h : i.format with
  | op8 => simp [decode, decodeOp_encodeByte h]
  | optType => simp [decode, decodeOptType_encodeByte h]

/-- A code that decodes is the code of the operation it decodes to: each of the 14 tests of the
decoder either answers its own operation or hands on to the next (R75). -/
theorem decodeOp_ok {b : Byte} {i : Instr} (h : decodeOp b = .ok i) :
    i.format = .op8 ∧ encodeByte i = b := by
  unfold decodeOp at h
  iterate 14
    rcases ite_eq_iff.mp h with ⟨rfl, hi⟩ | ⟨-, h⟩
    · cases hi; exact ⟨rfl, rfl⟩
  cases h

theorem decode_ok {f : Format} {bs rest : List Byte} {i : Instr}
    (h : decode f bs = .ok (i, rest)) : i.format = f ∧ bs = encode i ++ rest := by
  cases bs with
  | nil => cases f <;> cases h
  | cons b tail =>
    cases f with
    | op8 =>
      cases hb : decodeOp b with
      | error e => simp [decode, hb] at h
      | ok j =>
        obtain ⟨rfl, rfl⟩ : j = i ∧ tail = rest := by simpa [decode, hb] using h
        obtain ⟨hformat, hbyte⟩ := decodeOp_ok hb
        exact ⟨hformat, by rw [encode, hbyte, List.singleton_append]⟩
    | optType =>
      obtain ⟨rfl, rfl⟩ : decodeOptType b = i ∧ tail = rest := by simpa [decode] using h
      obtain ⟨hformat, hbyte⟩ := decodeOptType_spec b
      exact ⟨hformat, by rw [encode, hbyte, List.singleton_append]⟩

/-- Settles O4: the byte of each instruction decodes to it, and the converse is read off the chain of
codes (`decodeOp_ok`) and the rows of the type byte (`decodeOptType_spec`). -/
theorem decodeEncodeAgree : Obligations.DecodeEncodeAgree :=
  ⟨decode_encode, fun _ _ _ _ h => decode_ok h⟩

/-- Settles O1: each code is the encoded byte of its operation. -/
theorem operationCodesDecode : Obligations.OperationCodesDecode :=
  ⟨ByteRoundTrip.ver.1 rfl, ByteRoundTrip.ihl.1 rfl, ByteRoundTrip.flg.1 rfl,
    ByteRoundTrip.foff.1 rfl, ByteRoundTrip.ocpy.1 rfl, ByteRoundTrip.ocls.1 rfl,
    ByteRoundTrip.onum.1 rfl, ByteRoundTrip.optenc.1 rfl, ByteRoundTrip.optdec.1 rfl,
    ByteRoundTrip.pktnew.1 rfl, ByteRoundTrip.withopt.1 rfl, ByteRoundTrip.hdrenc.1 rfl,
    ByteRoundTrip.hdrdec.1 rfl, ByteRoundTrip.cksum.1 rfl⟩

/-- Settles O2: each byte is the encoded byte of its row with those fields. -/
theorem optionTypeWordsDecode : Obligations.OptionTypeWordsDecode :=
  ⟨(ByteRoundTrip.optEol 0 0).2 rfl, (ByteRoundTrip.optEol 1 0).2 rfl,
    (ByteRoundTrip.optNop 0 0).2 rfl, (ByteRoundTrip.optNop 1 3).2 rfl,
    (ByteRoundTrip.optTlv16 1 3 0b1111).2 rfl, (ByteRoundTrip.optTlv8 0 2 0b011).2 rfl,
    (ByteRoundTrip.optTlv4 1 0 0b10).2 rfl, (ByteRoundTrip.optTlv4 1 1 0b10).2 rfl,
    (ByteRoundTrip.optTlv2 0 0 0b0).2 rfl⟩

/-- A byte that meets the mask and match of a row meets those of no row above it (R70). -/
theorem typeByte_rows_exclude_earlier (t : Byte) :
    (t &&& 0x1F = 0x01 → t &&& 0x1F ≠ 0x00) ∧
    (t &&& 0x10 = 0x10 → t &&& 0x1F ≠ 0x00 ∧ t &&& 0x1F ≠ 0x01) ∧
    (t &&& 0x18 = 0x08 → t &&& 0x1F ≠ 0x00 ∧ t &&& 0x1F ≠ 0x01 ∧ t &&& 0x10 ≠ 0x10) ∧
    (t &&& 0x1C = 0x04 →
      t &&& 0x1F ≠ 0x00 ∧ t &&& 0x1F ≠ 0x01 ∧ t &&& 0x10 ≠ 0x10 ∧ t &&& 0x18 ≠ 0x08) ∧
    (t &&& 0x1E = 0x02 →
      t &&& 0x1F ≠ 0x00 ∧ t &&& 0x1F ≠ 0x01 ∧ t &&& 0x10 ≠ 0x10 ∧ t &&& 0x18 ≠ 0x08 ∧
        t &&& 0x1C ≠ 0x04) := by
  revert t
  decide

/-- Settles O3: the decoder tests the rows in order, and by `typeByte_rows_exclude_earlier` the row a
byte meets is the first it meets. -/
theorem typeByteRowsFollowMaskAndMatch : Obligations.TypeByteRowsFollowMaskAndMatch := by
  intro t
  obtain ⟨hnop, h16, h8, h4, h2⟩ := typeByte_rows_exclude_earlier t
  refine ⟨fun h => if_pos h, fun h => ?_, fun h => ?_, fun h => ?_, fun h => ?_, fun h => ?_⟩
  · exact (if_neg (hnop h)).trans (if_pos h)
  · simp only [decodeOptType, h16 h, h, ↓reduceIte, typeCopied, typeClass]
  · simp only [decodeOptType, h8 h, h, ↓reduceIte, typeCopied, typeClass]
  · simp only [decodeOptType, h4 h, h, ↓reduceIte, typeCopied, typeClass]
  · simp only [decodeOptType, h2 h, ↓reduceIte, typeCopied, typeClass]

/-! ### An undefined code -/

theorem encodeByte_mem_opCodes {i : Instr} (h : i.format = .op8) :
    (encodeByte i).toNat ∈ opCodes := by
  cases i with
  | ver | ihl | flg | foff | ocpy | ocls | onum | optenc | optdec | pktnew | withopt | hdrenc
  | hdrdec | cksum => decide
  | optEol | optNop | optTlv16 | optTlv8 | optTlv4 | optTlv2 => cases h

/-- Only the 14 codes decode to an operation (R75, R76). -/
theorem mem_opCodes_of_decodeOp_ok {b : Byte} {i : Instr} (h : decodeOp b = .ok i) :
    b.toNat ∈ opCodes := by
  obtain ⟨hformat, rfl⟩ := decodeOp_ok h
  exact encodeByte_mem_opCodes hformat

/-- Settles O7: the write puts the byte into `OP`, and no operation has it as its code. -/
theorem undefinedOpCodeSetsIllegalOpOnly : Obligations.UndefinedOpCodeSetsIllegalOpOnly := by
  intro s v rest hs hv hcode
  rw [step_write_op hs hv]
  rcases startOp_cases { s with host := rest, op := BitVec.ofNat 8 v } with
    ⟨i, hi, -⟩ | ⟨e, -, hill⟩
  · have hmem := mem_opCodes_of_decodeOp_ok hi
    rw [byte_ofNat_toNat hv] at hmem
    exact absurd hmem hcode
  · exact hill

/-! ### Fields and packings -/

theorem verIhlByte_ver_ihlw (b : Byte) : verIhlByte (ver b) (ihlw b) = b := by
  apply BitVec.eq_of_toNat_eq
  rw [verIhlByte_toNat, ver_toNat, ihlw_toNat]
  omega

theorem flagsFoffHalf_flg_foff (h : Half) : flagsFoffHalf (flg h) (foff h) = h := by
  apply BitVec.eq_of_toNat_eq
  rw [flagsFoffHalf_toNat, flg_toNat, foff_toNat]
  omega

theorem ver_verIhlByte (v l : BitVec 4) : ver (verIhlByte v l) = v := by
  apply BitVec.eq_of_toNat_eq
  rw [ver_toNat, verIhlByte_toNat]
  omega

theorem ihlw_verIhlByte (v l : BitVec 4) : ihlw (verIhlByte v l) = l := by
  apply BitVec.eq_of_toNat_eq
  rw [ihlw_toNat, verIhlByte_toNat]
  omega

theorem flg_flagsFoffHalf (f : BitVec 3) (o : BitVec 13) : flg (flagsFoffHalf f o) = f := by
  apply BitVec.eq_of_toNat_eq
  rw [flg_toNat, flagsFoffHalf_toNat]
  omega

theorem foff_flagsFoffHalf (f : BitVec 3) (o : BitVec 13) : foff (flagsFoffHalf f o) = o := by
  apply BitVec.eq_of_toNat_eq
  rw [foff_toNat, flagsFoffHalf_toNat]
  omega

/-- Settles O15: the fields as numbers, and the packings by their numbers. -/
theorem packedFieldsAreQuotientAndRemainder : Obligations.PackedFieldsAreQuotientAndRemainder :=
  ⟨fun b => ⟨ver_toNat b, ihlw_toNat b, verIhlByte_ver_ihlw b⟩,
    fun h => ⟨flg_toNat h, foff_toNat h, flagsFoffHalf_flg_foff h⟩,
    fun v l => ⟨ver_verIhlByte v l, ihlw_verIhlByte v l⟩,
    fun f o => ⟨flg_flagsFoffHalf f o, foff_flagsFoffHalf f o⟩⟩

theorem typeByte_copied_cls_number (t : Byte) : typeByte (copied t) (cls t) (number t) = t := by
  apply BitVec.eq_of_toNat_eq
  rw [typeByte_toNat, copied_toNat, cls_toNat, number_toNat]
  omega

/-- Settles O17: the fields of a type byte as numbers; the single-byte types are counted by
evaluation. -/
theorem typeByteFieldsAndSingleByteTypes : Obligations.TypeByteFieldsAndSingleByteTypes := by
  refine ⟨fun t => ⟨copied_toNat t, cls_toNat t, number_toNat t, typeByte_copied_cls_number t, ?_,
    isEOL_iff t⟩, by decide⟩
  rw [single_iff]
  omega

/-! ### The rows of format `OPTTYPE` -/

/-- Settles O22: both are the option decoder on the byte at the cursor. -/
theorem optdecRunsTheTypeByteRow : Obligations.OptdecRunsTheTypeByteRow := by
  intro s ha
  rw [exec_decodeOptType]
  exact execOptdec_eq s ha

/-- A row whose type byte has number 0 or 1 completes on every state (R118, R120). -/
theorem singleStored_of_optType {i : Instr} {t : Nat} (s : State) (hi : i.format = .optType)
    (ht : (encodeByte i).toNat = t) (hsingle : t % 32 ≤ 1) : SingleStored i t s := by
  subst ht
  exact ⟨_, (exec_optType hi s).trans (decodeElement_single _ s hsingle), rfl, rfl, rfl⟩

/-- Settles O24: the type bytes of the two rows have the numbers 0 and 1. -/
theorem singleByteRowsComplete : Obligations.SingleByteRowsComplete := by
  intro s c k
  exact ⟨singleStored_of_optType s rfl (typeByte_toNat c k 0#5) (by omega),
    singleStored_of_optType s rfl (typeByte_toNat c k 1#5) (by omega)⟩

/-- The number of a TLV row's type byte: its leading set bit and the free bits below it (R70). -/
theorem typeByte_append_toNat {v w : Nat} (c : BitVec 1) (k : BitVec 2) (x : BitVec v)
    (n : BitVec w) (h : v + w = 5) :
    (typeByte c k ((x ++ n).cast h)).toNat =
      c.toNat * 128 + k.toNat * 32 + x.toNat * 2 ^ w + n.toNat := by
  rw [typeByte_toNat, BitVec.toNat_cast, append_toNat, ← Nat.add_assoc]

section
variable {i : Instr} {t : Nat} {s : State} (hi : i.format = .optType)
  (ht : (encodeByte i).toNat = t) (htlv : 1 < t % 32)
include hi ht htlv

/-- A row whose type byte has a number above 1 completes when the option fits (R118). -/
theorem tlvStored_of_optType (hfits : TlvFits s) : TlvStored i t s := by
  subst ht
  obtain ⟨hw, h2, hend⟩ := hfits
  refine ⟨_, (exec_optType hi s).trans (decodeElement_tlv _ s htlv hw h2 hend), rfl, rfl, ?_, ?_⟩
  · exact read_length _ _ _
  · intro j hj
    rw [toReg_vlen, read_length] at hj
    rw [toReg_val, byte_cells _ _ _ (Nat.zero_le j), read_getD, Nat.sub_zero, if_pos hj]

/-- Such a row is a truncated option when the option does not fit (R118, R119). -/
theorem exec_optType_truncated (hfits : ¬ TlvFits s) : exec i s = .next { s with status := 2 } := by
  subst ht
  exact (exec_optType hi s).trans (decodeElement_truncated _ s htlv hfits)

end

/-- Settles O25: the type bytes of the four rows have numbers above 1. -/
theorem tlvRowsCompleteOrTruncated : Obligations.TlvRowsCompleteOrTruncated := by
  intro s c k n4 n3 n2 n1
  have h16 : (encodeByte (.optTlv16 c k n4)).toNat =
      c.toNat * 128 + k.toNat * 32 + 16 + n4.toNat := typeByte_append_toNat c k 1#1 n4 rfl
  have h8 : (encodeByte (.optTlv8 c k n3)).toNat =
      c.toNat * 128 + k.toNat * 32 + 8 + n3.toNat := typeByte_append_toNat c k 1#2 n3 rfl
  have h4 : (encodeByte (.optTlv4 c k n2)).toNat =
      c.toNat * 128 + k.toNat * 32 + 4 + n2.toNat := typeByte_append_toNat c k 1#3 n2 rfl
  have h2 : (encodeByte (.optTlv2 c k n1)).toNat =
      c.toNat * 128 + k.toNat * 32 + 2 + n1.toNat := typeByte_append_toNat c k 1#4 n1 rfl
  constructor <;> intro hfits
  · exact ⟨tlvStored_of_optType rfl h16 (by omega) hfits,
      tlvStored_of_optType rfl h8 (by omega) hfits,
      tlvStored_of_optType rfl h4 (by omega) hfits,
      tlvStored_of_optType rfl h2 (by omega) hfits⟩
  · exact ⟨exec_optType_truncated rfl h16 (by omega) hfits,
      exec_optType_truncated rfl h8 (by omega) hfits,
      exec_optType_truncated rfl h4 (by omega) hfits,
      exec_optType_truncated rfl h2 (by omega) hfits⟩

/-! ### What `HDRDEC` does not check -/

/-- Two inputs that agree from an offset on agree from every later one on. -/
theorem drop_eq_of_le {w w' : List Byte} {m n : Nat} (h : w'.drop m = w.drop m) (hmn : m ≤ n) :
    w'.drop n = w.drop n := by
  rw [← Nat.add_sub_cancel' hmn, ← List.drop_drop, h, List.drop_drop]

/-- The option loop reads nothing before its cursor (R146). -/
theorem parseLoop_congr {w w' : List Byte} (hl fuel c : Nat) (h : w'.drop c = w.drop c) :
    parseLoop w' hl fuel c = parseLoop w hl fuel c := by
  induction fuel generalizing c with
  | zero => rfl
  | succ fuel ih =>
    have hrest (n : Nat) : parseLoop w' hl fuel (c + n) = parseLoop w hl fuel (c + n) :=
      ih (c + n) (drop_eq_of_le h (Nat.le_add_right c n))
    simp only [parseLoop_succ, h, hrest]

/-- Of the fixed header `hdrDecode` uses only the header-length nibble beyond the fields it returns
(R149). -/
theorem hdrDecode_congr {w w' : List Byte} (hlen : w'.length = w.length)
    (hihl : (decodeFields w').ihl = (decodeFields w).ihl) (hdrop : w'.drop 20 = w.drop 20) :
    hdrDecode w' = (hdrDecode w).map fun d => { d with pkt := decodeFields w' } := by
  simp only [hdrDecode, hlen, hihl]
  split
  · rfl
  split
  · rfl
  split
  · rfl
  next hshort _ =>
    rw [parseOptions, parseOptions, parseLoop_congr _ _ _ hdrop,
      drop_eq_of_le hdrop (Nat.le_of_not_lt hshort)]
    cases parseLoop w _ _ _ <;> rfl

/-- The header length of an input is read from its first byte, when it has one (R145). -/
theorem decodeFields_ihl_toNat (s : State) :
    (decodeFields (wireBytes s)).ihl.toNat = if 0 < s.wlen then wireIhl s else 0 := by
  rw [decodeFields, ihlw_toNat, byteAt, wireBytes, read_getD, Nat.zero_add, wireIhl]
  split <;> rfl

theorem hdrDecode_wireBytes_congr {s : State} {wire' : Memory}
    (hihl : (wire'.byte 0).toNat % 16 = wireIhl s)
    (hbytes : ∀ a, 20 ≤ a → wire'.byte a = s.wire.byte a) :
    hdrDecode (wireBytes { s with wire := wire' }) = (hdrDecode (wireBytes s)).map fun d =>
      { d with pkt := decodeFields (wireBytes { s with wire := wire' }) } := by
  apply hdrDecode_congr
  · simp only [wireBytes, read_length]
  · apply BitVec.eq_of_toNat_eq
    rw [decodeFields_ihl_toNat, decodeFields_ihl_toNat, ← hihl]
    rfl
  · simp only [wireBytes, read_drop]
    exact read_congr _ _ _ _ fun a ha _ => hbytes a (by omega)

theorem exec_hdrdec_of_error {s : State} {k : Completion}
    (h : hdrDecode (wireBytes s) = .error k) : exec .hdrdec s = .next { s with status := k.code } := by
  rw [exec, execHdrdec, h, orRaise_error, raise_eq]

theorem exec_hdrdec_of_ok {s : State} {d : Decoded} (h : hdrDecode (wireBytes s) = .ok d) :
    exec .hdrdec s = .next
      { s with
        pkt := d.pkt
        opts := storeOpts 0 d.opts s.opts
        nopt := d.opts.length
        pay := s.pay.write 0 d.pay
        plen := d.pay.length
        status := 0 } := by
  rw [exec, execHdrdec, h, orRaise_ok, complete_eq]

/-- Settles O44: by `hdrDecode_wireBytes_congr` the two inputs decode alike but for the fields, and
the fields go to `PKT` only. -/
theorem hdrdecAcceptsAnyUncheckedField : Obligations.HdrdecAcceptsAnyUncheckedField := by
  intro s wire' hihl hbytes
  have hagree := hdrDecode_wireBytes_congr hihl hbytes
  cases hd : hdrDecode (wireBytes s) with
  | error k =>
    rw [hd] at hagree
    exact ⟨_, _, exec_hdrdec_of_error hd, exec_hdrdec_of_error hagree, rfl, rfl, rfl, rfl, rfl⟩
  | ok d =>
    rw [hd] at hagree
    exact ⟨_, _, exec_hdrdec_of_ok hd, exec_hdrdec_of_ok hagree, rfl, rfl, rfl, rfl, rfl⟩

end Sys2Proof.Proofs
end

section
/-! The bitfield unpacker's results (`40_bitfield_unpacker.md`, R101 to R104). Each operation
completes with a scalar, so its whole next state is known once the scalar's value is. -/

namespace Sys2Proof.Proofs

open Sys2Proof.Machine

theorem completeScalar_of_toNat {n k : Nat} {v : BitVec n} (s : State) (h : v.toNat = k) :
    completeScalar v s = .next { s with r := BitVec.ofNat 16 k, status := 0 } := by
  rw [completeScalar_eq, setWidth_eq_ofNat, h]

theorem ver_operandByte_toNat (s : State) :
    (ver (operandByte s)).toNat = s.a.toNat % 256 / 16 := by
  rw [ver_toNat, operandByte_toNat]

/-- The low four bits of the operand's low byte are those of the operand. -/
theorem ihlw_operandByte_toNat (s : State) : (ihlw (operandByte s)).toNat = s.a.toNat % 16 := by
  rw [ihlw_toNat, operandByte_toNat]
  exact Nat.mod_mod_of_dvd _ (by decide : 16 ∣ 256)

/-- Settles O16: the codes are read off the encoder, and each result is the value of the operation's
field. -/
theorem bitfieldUnpackerResults : Obligations.BitfieldUnpackerResults :=
  ⟨rfl, rfl, rfl, rfl, fun s =>
    ⟨completeScalar_of_toNat s (ver_operandByte_toNat s),
      completeScalar_of_toNat s (ihlw_operandByte_toNat s),
      completeScalar_of_toNat s (flg_toNat s.a),
      completeScalar_of_toNat s (foff_toNat s.a)⟩⟩

end Sys2Proof.Proofs
end

section
/-! The option codec's operations (`41_option_codec.md`): the classifiers, the bytes that `OPTENC`
writes, and what `OPTDEC` and `optDecode` make of them. -/

namespace Sys2Proof.Proofs

open Sys2Proof.Machine Sys2Proof.Claims

/-! ### The classifiers -/

theorem copied_operandByte_toNat (s : State) :
    (copied (operandByte s)).toNat = s.a.toNat % 256 / 128 := by
  rw [copied_toNat, operandByte_toNat]

theorem cls_operandByte_toNat (s : State) :
    (cls (operandByte s)).toNat = s.a.toNat % 128 / 32 := by
  rw [cls_toNat, operandByte_toNat]
  omega

theorem number_operandByte_toNat (s : State) :
    (number (operandByte s)).toNat = s.a.toNat % 32 := by
  rw [number_toNat, operandByte_toNat]
  exact Nat.mod_mod_of_dvd _ (by decide : 32 ∣ 256)

/-- Settles O18: the codes are read off the encoder, and each result is the value of the field of
the operand's low byte. -/
theorem optionClassifierResults : Obligations.OptionClassifierResults :=
  ⟨rfl, rfl, rfl, fun s =>
    ⟨completeScalar_of_toNat s (copied_operandByte_toNat s),
      completeScalar_of_toNat s (cls_operandByte_toNat s),
      completeScalar_of_toNat s (number_operandByte_toNat s)⟩⟩

/-! ### The bytes of an option -/

theorem optBytes_single {o : OptReg} (h : IsSingle o.typ) : optBytes o = [o.typ] := if_pos h

theorem optBytes_tlv {o : OptReg} (h : ¬ IsSingle o.typ) :
    optBytes o = o.typ :: o.len :: o.val.read 0 (o.len.toNat - 2) := if_neg h

/-- An encodable option takes one byte or as many as its length byte says (R114). -/
theorem optBytes_length {o : OptReg} (h : Claims.Encodable o) :
    (optBytes o).length = if IsSingle o.typ then 1 else o.len.toNat := by
  by_cases hs : IsSingle o.typ
  · rw [optBytes_single hs, if_pos hs, List.length_singleton]
  · have hmin : 2 ≤ o.len.toNat := (h.resolve_left hs).1
    rw [optBytes_tlv hs, if_neg hs, List.length_cons, List.length_cons, read_length]
    omega

theorem optBytes_length_pos (o : OptReg) : 0 < (optBytes o).length := by
  by_cases hs : IsSingle o.typ
  · simp [optBytes_single hs]
  · simp [optBytes_tlv hs]

theorem optBytes_getD_zero (o : OptReg) : (optBytes o).getD 0 0 = o.typ := by
  by_cases hs : IsSingle o.typ
  · rw [optBytes_single hs]; rfl
  · rw [optBytes_tlv hs]; rfl

theorem not_isSingle_of_one_lt_length {o : OptReg} (h : 1 < (optBytes o).length) :
    ¬ IsSingle o.typ := by
  intro hs
  rw [optBytes_single hs] at h
  exact absurd h (by simp)

theorem optBytes_getD_one {o : OptReg} (h : 1 < (optBytes o).length) :
    (optBytes o).getD 1 0 = o.len := by
  rw [optBytes_tlv (not_isSingle_of_one_lt_length h)]
  rfl

/-- From the third byte on the bytes of an option are those of its value (R114). -/
theorem optBytes_getD_value {o : OptReg} {k : Nat} (h : k + 2 < (optBytes o).length) :
    (optBytes o).getD (k + 2) 0 = o.val.byte k := by
  have hs : ¬ IsSingle o.typ := not_isSingle_of_one_lt_length (by omega)
  rw [optBytes_tlv hs] at h ⊢
  have hk : k < o.len.toNat - 2 := by simpa using h
  rw [List.getD_cons_succ, List.getD_cons_succ, read_getD, if_pos hk, Nat.zero_add]

/-! ### `OPTENC` -/

theorem exec_optenc_of_encodable {s : State} (h : Claims.Encodable s.o) :
    exec .optenc s = .next
      { s with
        wire := s.wire.write 0 (optBytes s.o)
        wlen := (optBytes s.o).length
        r := countHalf (optBytes s.o).length
        status := 0 } := by
  rw [exec, execOptenc, optEncode_value_ok_iff.mpr ⟨h, rfl⟩, orRaise_ok, complete_eq]

theorem exec_optenc_of_not_encodable {s : State} (h : ¬ Claims.Encodable s.o) :
    exec .optenc s = .next { s with status := 4 } := by
  cases henc : optEncode s.o.value with
  | error k =>
    obtain rfl := optEncode_error henc
    rw [exec, execOptenc, henc, orRaise_error, raise_eq]
    rfl
  | ok b => exact absurd (optEncode_value_ok_iff.mp henc).1 h

/-- Settles O19: `optEncode` accepts exactly the encodable options, and the count of their bytes is
`optBytes_length`. -/
theorem optencSerializesOrRefuses : Obligations.OptencSerializesOrRefuses := by
  refine ⟨rfl, fun s => ⟨fun henc => ?_, exec_optenc_of_not_encodable⟩⟩
  rw [exec_optenc_of_encodable henc, optBytes_length henc]
  split <;> rfl

/-- Settles O20: the only write to a buffer is that of the option's bytes from address 0 on, so each
byte is one of those or the old one. -/
theorem optencStoresItsBytesOnly : Obligations.OptencStoresItsBytesOnly := by
  intro s t h hok
  by_cases henc : Claims.Encodable s.o
  · rw [exec_optenc_of_encodable henc] at h
    obtain rfl := Host.Outcome.next.inj h
    refine ⟨?_, fun h1 => ?_, fun a h2 ha => ?_, fun a ha => ?_, fun _ => rfl⟩
    · rw [byte_write_zero_inside _ (optBytes_length_pos _), optBytes_getD_zero]
    · rw [byte_write_zero_inside _ h1, optBytes_getD_one h1]
    · obtain ⟨k, rfl⟩ := Nat.exists_eq_add_of_le' h2
      rw [byte_write_zero_inside _ ha, optBytes_getD_value ha, Nat.add_sub_cancel]
    · exact byte_write_outside _ _ _ _ (.inr (by simpa using ha))
  · rw [exec_optenc_of_not_encodable henc] at h
    obtain rfl := Host.Outcome.next.inj h
    cases hok

/-! ### `OPTDEC` -/

/-- With a byte at the cursor `OPTDEC` does what the row of that type byte does (R70, R121). -/
theorem exists_row_of_optdec {s : State} (h : s.a.toNat < s.wlen) :
    ∃ i : Instr, exec .optdec s = exec i s ∧ i.format = .optType ∧
      (encodeByte i).toNat = (s.wire.byte s.a.toNat).toNat := by
  obtain ⟨hformat, hbyte⟩ := decodeOptType_spec (s.wire.byte s.a.toNat)
  exact ⟨_, optdecRunsTheTypeByteRow s h, hformat, congrArg BitVec.toNat hbyte⟩

/-- Settles O21: a cursor with no byte is refused or gives the empty window; with a byte at the
cursor the three clauses are those of its row. -/
theorem optdecParsesAtCursor : Obligations.OptdecParsesAtCursor := by
  refine ⟨rfl, fun s => ⟨fun hbeyond => if_pos hbeyond, fun hend => ?_, fun h hsingle => ?_,
    fun h htlv hfits => ?_, fun h htlv hfits => ?_⟩⟩
  · rw [exec, execOptdec, if_neg (Nat.not_lt_of_le hend.le), hend, Nat.sub_self, read_zero]
    rfl
  · obtain ⟨i, hrow, hformat, hbyte⟩ := exists_row_of_optdec h
    rw [SingleStored, hrow]
    exact singleStored_of_optType s hformat hbyte hsingle
  · obtain ⟨i, hrow, hformat, hbyte⟩ := exists_row_of_optdec h
    rw [TlvStored, hrow]
    exact tlvStored_of_optType hformat hbyte (Nat.lt_of_not_le htlv) hfits
  · obtain ⟨i, hrow, hformat, hbyte⟩ := exists_row_of_optdec h
    rw [hrow]
    exact exec_optType_truncated hformat hbyte (Nat.lt_of_not_le htlv) hfits

/-! ### Round trips of one option -/

theorem asDecoded_single {o : OptVal} (h : IsSingle o.typ) :
    asDecoded o = { typ := o.typ, len := 0, val := [] } := if_pos h

theorem asDecoded_tlv {o : OptVal} (h : ¬ IsSingle o.typ) :
    asDecoded o = { o with val := o.val.take (o.len.toNat - 2) } := if_neg h

@[simp] theorem asDecoded_typ (o : OptVal) : (asDecoded o).typ = o.typ := by
  unfold asDecoded
  split <;> rfl

/-- An encoded option decodes to what R122 says, whatever follows it in the window, and takes the
bytes it was encoded to (R114, R118). -/
theorem optDecode_of_optEncode {o : OptVal} {b : List Byte} (h : optEncode o = .ok b)
    (rest : List Byte) : optDecode (b ++ rest) = .ok (some (asDecoded o), b.length) := by
  by_cases hs : IsSingle o.typ
  · obtain rfl := Except.ok.inj ((optEncode_single hs).symm.trans h)
    exact asDecoded_single hs ▸ optDecode_single rest hs
  · have htlv : 1 < o.typ.toNat % 32 := Nat.lt_of_not_le hs
    by_cases hfit : 2 ≤ o.len.toNat ∧ o.len.toNat - 2 ≤ o.val.length
    · obtain ⟨hmin, hval⟩ := hfit
      obtain rfl := Except.ok.inj ((optEncode_tlv htlv hmin hval).symm.trans h)
      have hlen : (o.val.take (o.len.toNat - 2)).length = o.len.toNat - 2 :=
        List.length_take_of_le hval
      rw [List.cons_append, List.cons_append,
        optDecode_tlv _ htlv hmin (by rw [List.length_append]; omega), List.take_left' hlen,
        asDecoded_tlv hs, List.length_cons, List.length_cons, hlen, Nat.add_assoc,
        Nat.sub_add_cancel hmin]
    · rw [optEncode_refused htlv (by omega)] at h
      cases h

/-- Whatever decodes from a non-empty window encodes to the bytes it took (R122). -/
theorem optEncode_of_optDecode {bs : List Byte} {d : Option OptVal} {n : Nat} (hbs : bs ≠ [])
    (h : optDecode bs = .ok (d, n)) : ∃ o, d = some o ∧ optEncode o = .ok (bs.take n) := by
  rcases optDecode_cases bs with ⟨hnil, -⟩ | ⟨t, rest, rfl, hs, hd⟩ |
    ⟨t, l, body, rfl, htlv, hmin, hfit, hd⟩ | ⟨t, rest, -, -, hd⟩
  · exact absurd hnil hbs
  · cases hd.symm.trans h
    exact ⟨_, rfl, optEncode_single hs⟩
  · cases hd.symm.trans h
    have hval : l.toNat - 2 ≤ (body.take (l.toNat - 2)).length := by
      rw [List.length_take]; omega
    obtain ⟨k, hk⟩ := Nat.exists_eq_add_of_le' hmin
    refine ⟨_, rfl, (optEncode_tlv htlv hmin hval).trans ?_⟩
    simp [hk]
  · cases hd.symm.trans h

/-- Settles O26: the first two clauses are `optDecode_of_optEncode` on the two kinds of option, the
third is `optEncode_of_optDecode`. -/
theorem oneOptionRoundTrips : Obligations.OneOptionRoundTrips := by
  refine ⟨fun o rest hs hmin hval => ?_, fun o rest hs => ?_,
    fun bs d n hbs h => optEncode_of_optDecode hbs h⟩
  · have henc := optEncode_tlv (Nat.lt_of_not_le hs) hmin hval
    refine ⟨_, henc, ?_, ?_⟩
    · rw [optDecode_of_optEncode henc rest, asDecoded_tlv hs, List.length_cons, List.length_cons,
        List.length_take_of_le hval, Nat.add_assoc, Nat.sub_add_cancel hmin]
    · obtain ⟨typ, len, val⟩ := o
      simp only [OptVal.mk.injEq, true_and, List.take_eq_self_iff]
      exact ⟨fun h => h.antisymm hval, fun h => h.le⟩
  · have henc := optEncode_single hs
    exact ⟨_, henc, asDecoded_single hs ▸ optDecode_of_optEncode henc rest⟩

end Sys2Proof.Proofs
end

section
/-! The option loop of `HDRDEC`, a turn at a time (`42_header_engine.md` R146). -/

namespace Sys2Proof.Proofs

open Sys2Proof.Machine Sys2Proof.Claims

theorem parseFrom_end {w : List Byte} {hl c : Nat} (h : hl ≤ c) : parseFrom w hl c = .ok [] :=
  parseLoop_end w hl _ c h

section
variable {w : List Byte} {hl c : Nat} (hc : c < hl)
include hc

theorem parseFrom_error {k : Completion} (hd : optDecode (w.drop c) = .error k) :
    parseFrom w hl c = .error k := by
  rw [parseFrom, show hl - c = hl - (c + 1) + 1 by omega, parseLoop_succ, if_pos hc, hd]

/-- A turn that decodes an option: it must end inside the header, and number 0 is the last. -/
theorem parseFrom_option {o : OptVal} {n : Nat} (hd : optDecode (w.drop c) = .ok (some o, n))
    (hn : 1 ≤ n) :
    parseFrom w hl c =
      if hl < c + n then .error .malformedOptionsRegion
      else if isEOL o.typ then .ok [o]
      else consOption o (parseFrom w hl (c + n)) := by
  rw [parseFrom, show hl - c = hl - (c + 1) + 1 by omega, parseLoop_succ, if_pos hc, hd,
    parseFrom, parseLoop_fuel w hl (hl - (c + n)) (hl - (c + 1)) (c + n) le_rfl (by omega)]
  rfl

theorem parseFrom_malformed {o : OptVal} {n : Nat} (hd : optDecode (w.drop c) = .ok (some o, n))
    (hn : 1 ≤ n) (hend : hl < c + n) : parseFrom w hl c = .error .malformedOptionsRegion := by
  rw [parseFrom_option hc hd hn, if_pos hend]

theorem parseFrom_last {o : OptVal} {n : Nat} (hd : optDecode (w.drop c) = .ok (some o, n))
    (hn : 1 ≤ n) (hend : c + n ≤ hl) (heol : o.typ.toNat % 32 = 0) :
    parseFrom w hl c = .ok [o] := by
  rw [parseFrom_option hc hd hn, if_neg (Nat.not_lt_of_le hend), if_pos ((isEOL_iff _).mpr heol)]

theorem parseFrom_cons {o : OptVal} {n : Nat} (hd : optDecode (w.drop c) = .ok (some o, n))
    (hn : 1 ≤ n) (hend : c + n ≤ hl) (heol : o.typ.toNat % 32 ≠ 0) :
    parseFrom w hl c = consOption o (parseFrom w hl (c + n)) := by
  rw [parseFrom_option hc hd hn, if_neg (Nat.not_lt_of_le hend),
    if_neg (mt (isEOL_iff _).mp heol)]

end

/-- The bytes from a cursor on begin with the byte at the cursor. -/
theorem drop_eq_getD_cons {w : List Byte} {c : Nat} (h : c < w.length) :
    w.drop c = w.getD c 0 :: w.drop (c + 1) := by
  rw [List.drop_eq_getElem_cons h, List.getD_eq_getElem w 0 h]

/-! `optDecode` on the window that begins at a cursor, in the bytes of the input (R118, R119). -/

section
variable {w : List Byte} {c : Nat}

theorem optDecode_drop_single (hc : c < w.length) (h : IsSingle (w.getD c 0)) :
    optDecode (w.drop c) = .ok (some { typ := w.getD c 0, len := 0, val := [] }, 1) := by
  rw [drop_eq_getD_cons hc]
  exact optDecode_single _ h

theorem optDecode_drop_tlv (h : 1 < (w.getD c 0).toNat % 32) (hc : c + 1 < w.length)
    (hmin : 2 ≤ (w.getD (c + 1) 0).toNat) (hfit : c + (w.getD (c + 1) 0).toNat ≤ w.length) :
    optDecode (w.drop c) = .ok (some
      { typ := w.getD c 0
        len := w.getD (c + 1) 0
        val := (w.drop (c + 2)).take ((w.getD (c + 1) 0).toNat - 2) },
      (w.getD (c + 1) 0).toNat) := by
  rw [drop_eq_getD_cons (Nat.lt_of_succ_lt hc), drop_eq_getD_cons hc]
  exact optDecode_tlv _ h hmin (by rw [List.length_drop]; omega)

theorem optDecode_drop_truncated (hc : c < w.length) (h : 1 < (w.getD c 0).toNat % 32)
    (hbad : c + 1 = w.length ∨ (w.getD (c + 1) 0).toNat < 2 ∨
      w.length < c + (w.getD (c + 1) 0).toNat) :
    optDecode (w.drop c) = .error .truncatedOption := by
  rw [drop_eq_getD_cons hc]
  by_cases hlt : c + 1 < w.length
  · rw [drop_eq_getD_cons hlt]
    exact optDecode_truncated _ h (by rw [List.length_drop]; omega)
  · rw [List.drop_of_length_le (Nat.le_of_not_lt hlt)]
    exact optDecode_alone h

end

/-- Settles O40: each clause is an answer of `optDecode` on the bytes from the cursor on, put
through the tests of one turn. -/
theorem optionLoopTurn : Obligations.OptionLoopTurn := by
  refine ⟨fun _ _ => rfl, fun w hl c hw => ⟨parseFrom_end, fun hc => ?_⟩⟩
  have hcw : c < w.length := hc.trans_le hw
  refine ⟨fun h0 => ?_, fun h1 => ?_, fun h1 hbad => ?_, fun h1 hlt hmin hfit hend => ?_,
    fun h1 hlt hmin hend => ?_⟩
  · exact parseFrom_last hc (optDecode_drop_single hcw (h0.trans_le zero_le_one)) le_rfl hc h0
  · exact parseFrom_cons hc (optDecode_drop_single hcw h1.le) le_rfl hc
      (ne_of_eq_of_ne h1 one_ne_zero)
  · exact parseFrom_error hc (optDecode_drop_truncated hcw h1 hbad)
  · exact parseFrom_malformed hc (optDecode_drop_tlv h1 hlt hmin hfit) (by omega) hend
  · exact parseFrom_cons hc (optDecode_drop_tlv h1 hlt hmin (hend.trans hw)) (by omega) hend
      (Nat.ne_zero_of_lt h1)

end Sys2Proof.Proofs
end

section
/-! The codes each operation can end with (`60_exceptions.md` R170). -/

namespace Sys2Proof.Proofs

open Sys2Proof.Machine Sys2Proof.Claims

/-- `hdrDecode` raises the three kinds of R171 to R173 and no other. -/
theorem hdrDecode_error {w : List Byte} {k : Completion} (h : hdrDecode w = .error k) :
    k = .tooShort ∨ k = .truncatedOption ∨ k = .malformedOptionsRegion := by
  rcases hdrDecode_cases w with ⟨-, he⟩ | ⟨-, -, he⟩ | ⟨-, -, -, he⟩ |
    ⟨-, -, -, ⟨k', hk', he⟩ | ⟨os, -, he⟩⟩ <;> rw [he] at h <;> cases h
  · exact .inl rfl
  · exact .inr (.inr rfl)
  · exact .inl rfl
  · exact .inr (parseLoop_error hk')

theorem execHdrdec_status {s t : State} (h : execHdrdec s = .next t) :
    t.status = 0 ∨ t.status = 1 ∨ t.status = 2 ∨ t.status = 3 := by
  rcases execHdrdec_next h with ⟨k, hk, rfl⟩ | ⟨d, -, rfl⟩
  · rcases hdrDecode_error hk with rfl | rfl | rfl
    · exact .inr (.inl rfl)
    · exact .inr (.inr (.inl rfl))
    · exact .inr (.inr (.inr rfl))
  · exact .inl rfl

theorem decodeElement_status {c : Byte} {s t : State} (h : decodeElement c s = .next t) :
    t.status = 0 ∨ t.status = 2 := by
  rcases decodeElement_next h with rfl | ⟨o, n, -, rfl⟩
  · exact .inr rfl
  · exact .inl rfl

theorem execOptdec_status {s t : State} (h : execOptdec s = .next t) :
    t.status = 0 ∨ t.status = 2 ∨ t.status = 4 := by
  rcases execOptdec_next h with ⟨-, rfl⟩ | ⟨-, rfl⟩ | ⟨-, hd⟩
  · exact .inr (.inr rfl)
  · exact .inl rfl
  · exact (decodeElement_status hd).imp_right .inl

/-- The operations that raise no kind but `BadOperand`. -/
theorem exec_status_zero_or_four {i : Instr} {s t : State}
    (hi : i ∈ [.optenc, .withopt, .hdrenc, .cksum]) (h : exec i s = .next t) :
    t.status = 0 ∨ t.status = 4 := by
  simp only [List.mem_cons, List.not_mem_nil, or_false] at hi
  rcases hi with rfl | rfl | rfl | rfl
  · rcases execOptenc_next h with rfl | ⟨b, -, rfl⟩ <;> simp
  · rcases execWithopt_next h with ⟨-, rfl⟩ | ⟨-, rfl⟩ <;> simp
  · rcases execHdrenc_next h with rfl | ⟨raw, -, -, -, rfl⟩ <;> simp
  · rcases execCksum_next h with ⟨-, rfl⟩ | ⟨-, rfl⟩ <;> simp

/-- Settles O46: every instruction answers (`exec_answers`), and its next state has one of the codes
that its own lemma names. -/
theorem everyOperationEndsWithItsOwnCode : Obligations.EveryOperationEndsWithItsOwnCode := by
  intro i s
  obtain ⟨t, h⟩ := exec_answers i s
  refine ⟨t, h, ?_⟩
  cases i with
  | ver | ihl | flg | foff | ocpy | ocls | onum | pktnew =>
    exact .inl (congrArg State.status (complete_next h))
  | optenc | withopt | hdrenc | cksum =>
    have hcode := exec_status_zero_or_four (by decide) h
    simpa [IsElement, Instr.format] using hcode
  | optdec =>
    have hcode := execOptdec_status h
    simpa using hcode
  | hdrdec =>
    have hcode := execHdrdec_status h
    simpa using hcode
  | optEol | optNop | optTlv16 | optTlv8 | optTlv4 | optTlv2 =>
    have hcode := decodeElement_status h
    simpa [IsElement, Instr.format] using hcode

end Sys2Proof.Proofs
end

section
/-! Decoding the datagram that `HDRENC` has written (R140 to R147): the fields at their offsets, the
options region turn by turn, the payload after it. -/

namespace Sys2Proof.Proofs

open Sys2Proof.Machine Sys2Proof.Claims

/-! ### The options region -/

/-- An encodable option in front of a window decodes to what R122 says (R114, R118). -/
theorem optDecode_optBytes {o : OptReg} (h : Claims.Encodable o) (rest : List Byte) :
    optDecode (optBytes o ++ rest) = .ok (some (asDecoded o.value), (optBytes o).length) :=
  optDecode_of_optEncode (optEncode_value_ok_iff.mpr ⟨h, rfl⟩) rest

/-- The loop over the bytes of encodable options, when the header ends with them: it gives the
options up to the first of number 0 (R146). -/
theorem parseFrom_flatMap_optBytes {os : List OptReg} (henc : ∀ o ∈ os, Claims.Encodable o)
    {w rest : List Byte} {hl c : Nat} (hw : w.drop c = os.flatMap optBytes ++ rest)
    (hhl : hl = c + (os.flatMap optBytes).length) :
    parseFrom w hl c = .ok (uptoEOL (os.map fun o => asDecoded o.value)) := by
  induction os generalizing c with
  | nil => exact parseFrom_end (by simp [hhl])
  | cons o os ih =>
    obtain ⟨ho, hos⟩ := List.forall_mem_cons.mp henc
    rw [List.flatMap_cons, List.append_assoc] at hw
    rw [List.flatMap_cons, List.length_append] at hhl
    have hpos := optBytes_length_pos o
    have hd : optDecode (w.drop c) = .ok (some (asDecoded o.value), (optBytes o).length) :=
      hw ▸ optDecode_optBytes ho _
    rw [List.map_cons, uptoEOL, asDecoded_typ, value_typ]
    by_cases heol : o.typ.toNat % 32 = 0
    · rw [parseFrom_last (by omega) hd hpos (by omega) (by simpa using heol), if_pos heol]
    · have hrest : w.drop (c + (optBytes o).length) = os.flatMap optBytes ++ rest := by
        rw [← List.drop_drop, hw, List.drop_left]
      rw [parseFrom_cons (by omega) hd hpos (by omega) (by simpa using heol),
        ih hos hrest (by omega), if_neg heol]
      rfl

/-- A padding byte as an option in registers, so that the options region is one list of options. -/
def paddingReg (t : Byte) : OptReg := { typ := t, len := 0, vlen := 0, val := [] }

theorem padding_isSingle {n : Nat} {t : Byte} (ht : t ∈ padding n) : IsSingle t := by
  have hbytes : padding n ⊆ [0x01, 0x00] := by
    unfold padding
    split_ifs <;> simp
  have hsingle : ∀ t ∈ ([0x01, 0x00] : List Byte), IsSingle t := by decide
  exact hsingle t (hbytes ht)

theorem padding_flatMap_optBytes (n : Nat) :
    ((padding n).map paddingReg).flatMap optBytes = padding n := by
  rw [List.flatMap_map]
  exact (List.flatMap_congr fun t ht => optBytes_single (padding_isSingle ht)).trans
    (List.flatMap_singleton' _)

theorem padding_map_asDecoded (n : Nat) :
    (((padding n).map paddingReg).map fun o => asDecoded o.value) = paddingOptions n := by
  rw [List.map_map]
  exact List.map_congr_left fun t ht => asDecoded_single (padding_isSingle ht)

/-- The options region of an encodable Packet, standing where the loop starts, decodes to the
Packet's options and the padding options, up to the first of number 0 (R150). -/
theorem parseFrom_region {s : State} (henc : ∀ o ∈ listed s, Claims.Encodable o)
    {w rest : List Byte} {c : Nat} (hw : w.drop c = region s ++ rest) :
    parseFrom w (c + (region s).length) c = .ok (uptoEOL
      (((listed s).map fun o => asDecoded o.value) ++ paddingOptions (rawRegion s).length)) := by
  have hregion : region s =
      (listed s ++ (padding (rawRegion s).length).map paddingReg).flatMap optBytes := by
    rw [List.flatMap_append, padding_flatMap_optBytes, region, rawRegion]
  rw [hregion] at hw
  rw [hregion, parseFrom_flatMap_optBytes ?_ hw rfl, List.map_append, padding_map_asDecoded]
  intro o ho
  rcases List.mem_append.mp ho with ho | ho
  · exact henc o ho
  · obtain ⟨t, ht, rfl⟩ := List.mem_map.mp ho
    exact .inl (padding_isSingle ht)

/-- Options of other numbers than 0 in front of a list stay. -/
theorem uptoEOL_append {os : List OptVal} (h : ∀ o ∈ os, o.typ.toNat % 32 ≠ 0) (ps : List OptVal) :
    uptoEOL (os ++ ps) = os ++ uptoEOL ps := by
  induction os with
  | nil => rfl
  | cons o os ih =>
    obtain ⟨ho, hos⟩ := List.forall_mem_cons.mp h
    rw [List.cons_append, uptoEOL, if_neg ho, ih hos, List.cons_append]

/-- Padding has its end-of-list option last (R141). -/
theorem uptoEOL_paddingOptions (n : Nat) : uptoEOL (paddingOptions n) = paddingOptions n := by
  unfold paddingOptions padding
  split_ifs <;> rfl

/-- The options region is whole 4-byte words (R141). -/
theorem region_length_mod (s : State) : (region s).length % 4 = 0 := by
  rw [region, List.length_append, padding]
  split_ifs <;> simp only [List.length_cons, List.length_nil] <;> omega

/-! ### The fixed header -/

theorem vector_four_eta {α : Type} (v : Vector α 4) : #v[v[0], v[1], v[2], v[3]] = v := by
  ext i hi
  interval_cases i <;> rfl

/-- The bytes of the fixed header as a list of 20. -/
theorem fixedHeader_eq (p : Pkt) (ihl : BitVec 4) (tlen ck : Half) :
    fixedHeader p ihl tlen ck =
      [verIhlByte p.ver ihl, p.tos, tlen.extractLsb' 8 8, tlen.extractLsb' 0 8,
        p.id.extractLsb' 8 8, p.id.extractLsb' 0 8,
        (flagsFoffHalf p.flags p.foff).extractLsb' 8 8,
        (flagsFoffHalf p.flags p.foff).extractLsb' 0 8, p.ttl, p.proto,
        ck.extractLsb' 8 8, ck.extractLsb' 0 8,
        p.src[0], p.src[1], p.src[2], p.src[3], p.dst[0], p.dst[1], p.dst[2], p.dst[3]] := by
  rw [fixedHeader, ← vector_four_eta p.src, ← vector_four_eta p.dst]
  rfl

/-- The fields of a fixed header are those it was made from (R145). -/
theorem decodeFields_fixedHeader (p : Pkt) (ihl : BitVec 4) (tlen ck : Half) (rest : List Byte) :
    decodeFields (fixedHeader p ihl tlen ck ++ rest) =
      { p with ihl := ihl, tlen := tlen, cksum := ck } := by
  rw [fixedHeader_eq]
  simp [decodeFields, byteAt, be16At, addressAt, be16_append, ver_verIhlByte, ihlw_verIhlByte,
    flg_flagsFoffHalf, foff_flagsFoffHalf, vector_four_eta]

/-! ### The datagram -/

/-- `hdrDecode` of an input that holds its whole header, when the options parse (R145 to R147). -/
theorem hdrDecode_of_parseOptions {w : List Byte} {hl : Nat} {os : List OptVal}
    (hhl : (decodeFields w).ihl.toNat * 4 = hl) (hmin : 20 ≤ hl) (hfit : hl ≤ w.length)
    (hos : parseOptions w hl = .ok os) :
    hdrDecode w = .ok { pkt := decodeFields w, opts := os, pay := w.drop hl } := by
  subst hhl
  simp only [hdrDecode, hos, Config.baseHdr]
  rw [if_neg (by omega), if_neg (by omega), if_neg (by omega)]

/-- The header length that `assemble` puts into the header is where header and options end (R140).
-/
theorem assemble_ihl_mul_four {p : Pkt} {ob pay : List Byte} (hmod : ob.length % 4 = 0)
    (hle : ob.length ≤ 40) : (assemble p ob pay).ihl.toNat * 4 = 20 + ob.length := by
  simp only [assemble, BitVec.toNat_ofNat, Config.ihlDefault]
  omega

/-- The fields of an assembled datagram, the three recomputed ones included (R140, R145). -/
theorem decodeFields_assemble (p : Pkt) (ob pay : List Byte) :
    decodeFields (assemble p ob pay).bytes =
      { p with
        ihl := (assemble p ob pay).ihl
        tlen := (assemble p ob pay).tlen
        cksum := (assemble p ob pay).ck } := by
  rw [assemble_bytes, List.append_assoc, decodeFields_fixedHeader]

/-- An assembled datagram decodes to its fields, options and payload (R145 to R147). -/
theorem hdrDecode_assemble {p : Pkt} {ob pay : List Byte} {os : List OptVal}
    (hmod : ob.length % 4 = 0) (hle : ob.length ≤ 40)
    (hos : parseOptions (assemble p ob pay).bytes (20 + ob.length) = .ok os) :
    hdrDecode (assemble p ob pay).bytes = .ok
      { pkt := decodeFields (assemble p ob pay).bytes, opts := os, pay := pay } := by
  have hhl : (decodeFields (assemble p ob pay).bytes).ihl.toNat * 4 = 20 + ob.length := by
    rw [decodeFields_assemble]
    exact assemble_ihl_mul_four (p := p) (pay := pay) hmod hle
  have hfit : 20 + ob.length ≤ (assemble p ob pay).bytes.length := by
    rw [assemble_bytes_length]
    exact Nat.le_add_right _ _
  have hpay : (assemble p ob pay).bytes.drop (20 + ob.length) = pay := by
    rw [assemble_bytes]
    exact List.drop_left' (by simp)
  rw [hdrDecode_of_parseOptions hhl (Nat.le_add_right _ _) hfit hos, hpay]

/-- Options stored from index 0 on are the list's values (R148). -/
theorem storeOpts_values {os : List OptVal} (v : Vector OptReg 40) (h : os.length ≤ 40) :
    (((storeOpts 0 os v).toList.take os.length).map OptReg.value) = os := by
  apply List.ext_getElem? fun j => ?_
  rw [List.getElem?_map, List.getElem?_take, Vector.getElem?_toList,
    storeOpts_getElem? 0 os v j (by omega)]
  by_cases hj : j < os.length
  · rw [if_pos hj, if_pos (by omega), Nat.sub_zero, Option.map_map]
    simp [Function.comp_def]
  · rw [if_neg hj, List.getElem?_eq_none (by omega), Option.map_none]

/-- What `WIRE` holds after a successful `HDRENC` decodes to the Packet's fields with the three
recomputed ones, the options as the region carries them, and the payload. -/
theorem hdrDecode_after_hdrenc {s t : State} (h : exec .hdrenc s = .next t) (hok : t.status = 0) :
    hdrDecode (wireBytes t) = .ok
      { pkt := t.pkt
        opts := uptoEOL
          (((listed s).map fun o => asDecoded o.value) ++ paddingOptions (rawRegion s).length)
        pay := payload s } := by
  obtain ⟨⟨henc, hle, -⟩, rfl⟩ := execHdrenc_next_of_ok h hok
  have hlen : 20 + (region s).length + s.plen =
      (assemble s.pkt (region s) (payload s)).bytes.length := by
    rw [assemble_bytes_length, payload, read_length]
  have hwire : (s.wire.write 0 (assemble s.pkt (region s) (payload s)).bytes).read 0
      (20 + (region s).length + s.plen) = (assemble s.pkt (region s) (payload s)).bytes := by
    rw [hlen, read_write_same]
  have hdrop : (assemble s.pkt (region s) (payload s)).bytes.drop 20 =
      region s ++ payload s := by
    rw [assemble_bytes, List.append_assoc]
    exact List.drop_left' (fixedHeader_length _ _ _ _)
  have hos := parseFrom_region henc hdrop
  rw [← optionLoopTurn.1] at hos
  rw [wireBytes, hwire, hdrDecode_assemble (region_length_mod s) hle hos, decodeFields_assemble]

/-- Settles O45: the wire decodes by `hdrDecode_after_hdrenc`, and `HDRDEC` puts the three results
into their registers. The last clause drops the cut, since the padding has its end last. -/
theorem encodeThenDecodeRoundTrips : Obligations.EncodeThenDecodeRoundTrips := by
  intro s t h hok
  have hd := hdrDecode_after_hdrenc h hok
  obtain ⟨hcount, -, -⟩ := hdrDecode_bounds hd
  have hopts := storeOpts_values t.opts hcount
  have hplen : (payload s).length = s.plen := read_length _ _ _
  refine ⟨_, exec_hdrdec_of_ok hd, rfl, rfl, ?_⟩
  obtain ⟨-, rfl⟩ := execHdrenc_next_of_ok h hok
  refine ⟨rfl, rfl, rfl, rfl, rfl, rfl, rfl, rfl, rfl, hplen, fun i hi => ?_, hopts,
    fun hnoeol => hopts.trans ?_⟩
  · rw [byte_write_zero_inside _ (hi.trans_eq hplen.symm), payload, read_getD, if_pos hi,
      Nat.zero_add]
  · rw [uptoEOL_append, uptoEOL_paddingOptions]
    simpa using hnoeol

end Sys2Proof.Proofs
end

section
/-! The one's-complement sum in the claims' terms: the word sum by index, the closed law of the
folded sum, and a region that carries its own checksum (`43_checksum.md` R160, R161, R165). -/

namespace Sys2Proof.Proofs

open Sys2Proof.Machine Sys2Proof.Claims

theorem sumOfWords_congr {f g : Nat → Byte} {n : Nat} (h : ∀ i < n, f i = g i) :
    sumOfWords f n = sumOfWords g n := by
  unfold sumOfWords
  refine congrArg List.sum (List.map_congr_left fun i hi => ?_)
  rw [h i (List.mem_range.mp hi)]

/-- The first word apart; the bytes after it keep the parity of their offsets. -/
theorem sumOfWords_add_two (f : Nat → Byte) (n : Nat) :
    sumOfWords f (n + 2) =
      (f 0).toNat * 256 + (f 1).toNat + sumOfWords (fun i => f (i + 2)) n := by
  simp [sumOfWords, List.range_succ_eq_map, Function.comp_def, Nat.add_assoc]

/-- The word sum of a byte sequence, by index (R160, R162). -/
theorem wordSum_eq_sumOfWords (bs : List Byte) :
    wordSum bs = sumOfWords (fun i => bs.getD i 0) bs.length := by
  induction bs using wordSum.induct with
  | case1 => rfl
  | case2 hi => simp [wordSum, sumOfWords]
  | case3 hi lo rest ih =>
    rw [wordSum, ih, List.length_cons, List.length_cons, sumOfWords_add_two]
    rfl

/-- The word sum of the first bytes of a buffer. -/
theorem wordSum_read (m : Memory) (n : Nat) : wordSum (m.read 0 n) = sumOfWords m.byte n := by
  rw [wordSum_eq_sumOfWords, read_length]
  exact sumOfWords_congr fun i hi => by rw [read_getD, if_pos hi, Nat.zero_add]

/-- The folding loop has enough turns for the word sum, so it reaches the law of R161. -/
theorem onesSum_eq_foldedSum (bs : List Byte) : onesSum bs = foldedSum (wordSum bs) :=
  foldCarry_eq _ _ ((wordSum_le bs).trans (Nat.mul_le_mul_left _ (Nat.le_succ _)))

theorem cksum_eq_checksumOf (bs : List Byte) :
    cksum bs = BitVec.ofNat 16 (checksumOf (fun i => bs.getD i 0) bs.length) := by
  rw [cksum, onesSum_eq_foldedSum, wordSum_eq_sumOfWords, checksumOf]

theorem cksum_eq_zero_of_onesSum {bs : List Byte} (h : onesSum bs = 0xFFFF) : cksum bs = 0 := by
  rw [cksum, h]
  rfl

theorem exec_cksum_of_le {s : State} (h : s.a.toNat ≤ s.wlen) :
    exec .cksum s = .next { s with r := cksum (s.wire.read 0 s.a.toNat), status := 0 } :=
  if_neg (Nat.not_lt_of_le h)

/-- Adding what a sum lacks to all ones makes the folded sum all ones (R165). -/
theorem foldedSum_add_complement (t : Nat) : foldedSum (t + (0xFFFF - foldedSum t)) = 0xFFFF := by
  unfold foldedSum
  split_ifs <;> omega

theorem wordSum_be16 (v : Half) : wordSum (be16 v) = v.toNat := by
  have hlt := v.isLt
  simp only [be16, wordSum, extract_toNat]
  omega

/-- A halfword at an even offset adds its number to the word sum. -/
theorem wordSum_be16_between {front : List Byte} (h : front.length % 2 = 0) (v : Half)
    (back : List Byte) :
    wordSum (front ++ be16 v ++ back) = wordSum front + wordSum back + v.toNat := by
  rw [List.append_assoc, wordSum_append _ _ h, wordSum_append _ _ (by rw [be16_length]),
    wordSum_be16]
  omega

/-- A region with its checksum, computed with zeros in the field, at an even offset sums to all ones
(R165). -/
theorem onesSum_checksum_in_field {front : List Byte} (h : front.length % 2 = 0)
    (back : List Byte) :
    onesSum (front ++ be16 (cksum (front ++ be16 0 ++ back)) ++ back) = 0xFFFF := by
  have hzero : wordSum (front ++ be16 0 ++ back) = wordSum front + wordSum back :=
    wordSum_be16_between h 0 back
  rw [onesSum_eq_foldedSum, wordSum_be16_between h, cksum_toNat, onesSum_eq_foldedSum, hzero,
    foldedSum_add_complement]

/-- Settles O38: the field stands at offset 10, which is even, and its zeros are the halfword 0. -/
theorem checksumInFieldVerifies : Obligations.ChecksumInFieldVerifies := by
  intro front back hfront _
  have hones := onesSum_checksum_in_field (front := front) (by rw [hfront]) back
  exact ⟨hones, cksum_eq_zero_of_onesSum hones⟩

end Sys2Proof.Proofs
end

section
/-! `PKTNEW`, and `HDRENC` in the claims' terms: which Packets it takes, the datagram it writes, and
what holds of every datagram written (`42_header_engine.md` R131, R140 to R144). -/

namespace Sys2Proof.Proofs

open Sys2Proof.Machine Sys2Proof.Claims

theorem half_ofNat_toNat {n : Nat} (h : n ≤ 65535) : (BitVec.ofNat 16 n).toNat = n :=
  (BitVec.toNat_ofNat n 16).trans (Nat.mod_eq_of_lt (Nat.lt_succ_of_le h))

/-- Settles O27: the fields are `PKTNEW`'s own, and the total length fits 16 bits by the maximum of
`plen`. -/
theorem pktnewLoadsDefaults : Obligations.PktnewLoadsDefaults :=
  ⟨rfl, fun _ hplen => ⟨rfl, half_ofNat_toNat (by omega)⟩⟩

/-! ### Padding -/

theorem length_add_padding_length_mod (n : Nat) : (n + (padding n).length) % 4 = 0 := by
  unfold padding
  split_ifs <;> simp only [List.length_cons, List.length_nil] <;> omega

/-- Settles O29: padding appends `padding`, which has one case per remainder, and `HDRENC` is not
among the operations that write `OPTS` or `nopt`. -/
theorem paddingByRemainder : Obligations.PaddingByRemainder := by
  intro ob
  rw [pad_eq_append_padding]
  refine ⟨fun h => ?_, fun h => ?_, fun h => ?_, fun h => ?_, ?_, fun s t hexec => ?_⟩
  · simp [padding, h]
  · simp [padding, h]
  · simp [padding, h]
  · simp [padding, h]
  · rw [List.length_append, length_add_padding_length_mod]
  · obtain ⟨-, -, -, hopts, hnopt, -⟩ := operationsWriteOnlyTheirState _ _ _ hexec
    exact ⟨hopts nofun nofun, hnopt nofun nofun nofun⟩

/-! ### The datagram in the claims' terms -/

/-- The fixed header of R60 as numbers at their offsets. -/
theorem fixedHeader_eq_headerBytes (p : Pkt) (ihl : BitVec 4) (tlen ck : Half) :
    fixedHeader p ihl tlen ck = headerBytes p ihl.toNat tlen.toNat ck.toNat := by
  have hver : verIhlByte p.ver ihl = BitVec.ofNat 8 (p.ver.toNat * 16 + ihl.toNat) := by
    rw [← verIhlByte_toNat, BitVec.ofNat_toNat, BitVec.setWidth_eq]
  rw [fixedHeader, ← vector_four_eta p.src, ← vector_four_eta p.dst, hver]
  simp only [be16_eq, flagsFoffHalf_toNat]
  rfl

section
variable {p : Pkt} {ob pay : List Byte}

theorem assemble_ihl_toNat (hle : ob.length ≤ 40) :
    (assemble p ob pay).ihl.toNat = 5 + ob.length / 4 :=
  (BitVec.toNat_ofNat _ 4).trans (Nat.mod_eq_of_lt (by simp only [Config.ihlDefault]; omega))

theorem assemble_tlen (p : Pkt) (ob pay : List Byte) :
    (assemble p ob pay).tlen = BitVec.ofNat 16 (20 + ob.length + pay.length) := rfl

theorem assemble_tlen_toNat (htotal : 20 + ob.length + pay.length ≤ 65535) :
    (assemble p ob pay).tlen.toNat = 20 + ob.length + pay.length :=
  half_ofNat_toNat htotal

/-- The checksum over header and options region with zeros in its field, in the claims' terms
(R140, R160). -/
def headerChecksum (p : Pkt) (ob : List Byte) (tlen : Nat) : Nat :=
  checksumOf (fun i => (headerBytes p (5 + ob.length / 4) tlen 0 ++ ob).getD i 0) (20 + ob.length)

theorem headerChecksum_toNat (p : Pkt) (ob : List Byte) (tlen : Nat) :
    (BitVec.ofNat 16 (headerChecksum p ob tlen)).toNat = headerChecksum p ob tlen :=
  half_ofNat_toNat (Nat.sub_le _ _)

theorem assemble_ck (p : Pkt) (ob pay : List Byte) :
    (assemble p ob pay).ck =
      cksum (fixedHeader p (assemble p ob pay).ihl (assemble p ob pay).tlen 0 ++ ob) := rfl

theorem assemble_ck_eq (hle : ob.length ≤ 40) (htotal : 20 + ob.length + pay.length ≤ 65535) :
    (assemble p ob pay).ck =
      BitVec.ofNat 16 (headerChecksum p ob (20 + ob.length + pay.length)) := by
  rw [assemble_ck, cksum_eq_checksumOf, List.length_append, fixedHeader_length,
    fixedHeader_eq_headerBytes, assemble_ihl_toNat hle, assemble_tlen_toNat htotal]
  rfl

theorem assemble_bytes_eq (hle : ob.length ≤ 40) (htotal : 20 + ob.length + pay.length ≤ 65535) :
    (assemble p ob pay).bytes =
      headerBytes p (5 + ob.length / 4) (20 + ob.length + pay.length)
        (headerChecksum p ob (20 + ob.length + pay.length)) ++ ob ++ pay := by
  rw [assemble_bytes, fixedHeader_eq_headerBytes, assemble_ihl_toNat hle,
    assemble_tlen_toNat htotal, assemble_ck_eq hle htotal, headerChecksum_toNat]

end

/-- Header and region of an assembled datagram sum to all ones (R144, R165). -/
theorem onesSum_assembled_header (p : Pkt) (ob pay : List Byte) :
    onesSum (fixedHeader p (assemble p ob pay).ihl (assemble p ob pay).tlen
      (assemble p ob pay).ck ++ ob) = 0xFFFF := by
  have hsplit (ck : Half) :
      fixedHeader p (assemble p ob pay).ihl (assemble p ob pay).tlen ck ++ ob =
        (fixedHeader p (assemble p ob pay).ihl (assemble p ob pay).tlen 0).take 10 ++ be16 ck ++
          (p.src.toList ++ p.dst.toList ++ ob) := by
    simp [fixedHeader, be16]
  rw [hsplit, assemble_ck, hsplit 0]
  exact onesSum_checksum_in_field (by simp) _

/-! ### Which Packets `HDRENC` takes -/

theorem payload_length (s : State) : (payload s).length = s.plen := read_length _ _ _

theorem hdrEncode_of_encodable {s : State} (h : EncodablePacket s) :
    hdrEncode s.pkt (optList s) (payload s) = .ok (assemble s.pkt (region s) (payload s)) := by
  obtain ⟨henc, hregion, htotal⟩ := h
  have hraw : encodeOptions (optList s) = .ok (rawRegion s) :=
    encodeOptions_value_ok_iff.mpr ⟨henc, rfl⟩
  have hpad : pad (rawRegion s) = region s := pad_eq_append_padding _
  simp only [hdrEncode, hraw, hpad, payload_length]
  rw [if_neg (Nat.not_lt_of_le hregion), if_neg (Nat.not_lt_of_le htotal)]

/-- The state that `HDRENC` leaves when it takes the Packet: the assembled datagram in `WIRE`, its
length, the three recomputed registers, `STATUS` 0 (R143). -/
def afterEncoding (s : State) : State :=
  { s with
    wire := s.wire.write 0 (assemble s.pkt (region s) (payload s)).bytes
    wlen := 20 + (region s).length + s.plen
    pkt :=
      { s.pkt with
        ihl := (assemble s.pkt (region s) (payload s)).ihl
        tlen := (assemble s.pkt (region s) (payload s)).tlen
        cksum := (assemble s.pkt (region s) (payload s)).ck }
    status := 0 }

theorem exec_hdrenc_of_encodable {s : State} (h : EncodablePacket s) :
    exec .hdrenc s = .next (afterEncoding s) := by
  rw [exec, execHdrenc_of_ok (hdrEncode_of_encodable h), assemble_bytes_length, payload_length,
    complete_eq]
  rfl

/-- A success of `HDRENC`: the Packet was encodable, and the next state is known (R142, R143). -/
theorem eq_afterEncoding {s t : State} (h : exec .hdrenc s = .next t) (hok : t.status = 0) :
    EncodablePacket s ∧ t = afterEncoding s := execHdrenc_next_of_ok h hok

/-- `HDRENC` answers a refusal or a success, and a success has an encodable Packet. -/
theorem exec_hdrenc_of_not_encodable {s : State} (h : ¬ EncodablePacket s) :
    exec .hdrenc s = .next { s with status := 4 } := by
  obtain ⟨t, ht⟩ := exec_answers .hdrenc s
  rcases execHdrenc_next ht with rfl | ⟨raw, -, -, -, hsucc⟩
  · exact ht
  · obtain ⟨henc, -⟩ := eq_afterEncoding ht (by rw [hsucc])
    exact absurd henc h

/-- Settles O30: the datagram assembled for an encodable Packet, in the claims' terms by
`assemble_bytes_eq` and `assemble_ck_eq`. -/
theorem hdrencSerializesOrRefuses : Obligations.HdrencSerializesOrRefuses := by
  refine ⟨rfl, fun s => ⟨fun h => ?_, exec_hdrenc_of_not_encodable⟩⟩
  have hexec := exec_hdrenc_of_encodable h
  obtain ⟨-, hregion, htotal⟩ := h
  rw [← payload_length s] at htotal
  rw [hexec, afterEncoding, assemble_bytes_eq hregion htotal, assemble_ck_eq hregion htotal,
    assemble_tlen, payload_length]
  rfl

/-- A second run reads nothing that the first has changed, and writes the same again. -/
theorem afterEncoding_afterEncoding (s : State) :
    afterEncoding (afterEncoding s) = afterEncoding s := by
  have hwire : (afterEncoding (afterEncoding s)).wire = (afterEncoding s).wire :=
    write_write_same _ _ _
  exact congrArg (fun wire => { afterEncoding s with wire := wire }) hwire

/-- Settles O35: a refused Packet is refused again, and an accepted one is encoded again to the same
state by `afterEncoding_afterEncoding`. -/
theorem hdrencTwiceChangesNothingMore : Obligations.HdrencTwiceChangesNothingMore := by
  intro s t h
  by_cases henc : EncodablePacket s
  · obtain rfl := Host.Outcome.next.inj ((exec_hdrenc_of_encodable henc).symm.trans h)
    have henc' : EncodablePacket (afterEncoding s) := henc
    rw [exec_hdrenc_of_encodable henc', afterEncoding_afterEncoding]
  · obtain rfl := Host.Outcome.next.inj ((exec_hdrenc_of_not_encodable henc).symm.trans h)
    exact exec_hdrenc_of_not_encodable henc

/-! ### What holds after a successful `HDRENC` -/

theorem byteAt_wireBytes {s : State} {k : Nat} (h : k < s.wlen) :
    byteAt (wireBytes s) k = s.wire.byte k := by
  rw [byteAt, wireBytes, read_getD, if_pos h, Nat.zero_add]

theorem afterEncoding_wlen (s : State) :
    (afterEncoding s).wlen = 20 + (region s).length + s.plen := rfl

theorem afterEncoding_wireBytes (s : State) :
    wireBytes (afterEncoding s) = (assemble s.pkt (region s) (payload s)).bytes := by
  have hlen := assemble_bytes_length s.pkt (region s) (payload s)
  rw [payload_length] at hlen
  rw [wireBytes, afterEncoding, ← hlen, read_write_same]

/-- The wire carries the fields of `PKT`, the three recomputed ones included. -/
theorem afterEncoding_decodeFields (s : State) :
    decodeFields (wireBytes (afterEncoding s)) = (afterEncoding s).pkt := by
  rw [afterEncoding_wireBytes, decodeFields_assemble]
  rfl

theorem afterEncoding_wireIhl (s : State) :
    wireIhl (afterEncoding s) = (afterEncoding s).pkt.ihl.toNat := by
  have hpos : 0 < (afterEncoding s).wlen := by rw [afterEncoding_wlen]; omega
  rw [← afterEncoding_decodeFields, decodeFields_ihl_toNat, if_pos hpos]

theorem afterEncoding_tlen_on_wire (s : State) :
    (afterEncoding s).pkt.tlen.toNat =
      ((afterEncoding s).wire.byte 2).toNat * 256 + ((afterEncoding s).wire.byte 3).toNat := by
  have hlt : 3 < (afterEncoding s).wlen := by rw [afterEncoding_wlen]; omega
  rw [← afterEncoding_decodeFields, decodeFields, be16At_toNat,
    byteAt_wireBytes (Nat.lt_of_succ_lt hlt), byteAt_wireBytes hlt]

section
variable {s : State} (h : EncodablePacket s)
include h

theorem afterEncoding_ihl_mul_four :
    (afterEncoding s).pkt.ihl.toNat * 4 = 20 + (region s).length := by
  obtain ⟨-, hregion, -⟩ := h
  exact assemble_ihl_mul_four (p := s.pkt) (pay := payload s) (region_length_mod s) hregion

theorem afterEncoding_tlen : (afterEncoding s).pkt.tlen.toNat = (afterEncoding s).wlen := by
  obtain ⟨-, -, htotal⟩ := h
  rw [afterEncoding_wlen, ← payload_length s]
  rw [← payload_length s] at htotal
  exact assemble_tlen_toNat (p := s.pkt) htotal

/-- The header in `WIRE` verifies (R144). -/
theorem afterEncoding_onesSum :
    onesSum ((afterEncoding s).wire.read 0 ((afterEncoding s).pkt.ihl.toNat * 4)) = 0xFFFF := by
  have hheader : (afterEncoding s).wire.read 0 (20 + (region s).length) =
      (wireBytes (afterEncoding s)).take (20 + (region s).length) := by
    rw [wireBytes, read_take, afterEncoding_wlen, Nat.min_eq_left (Nat.le_add_right _ _)]
  rw [afterEncoding_ihl_mul_four h, hheader, afterEncoding_wireBytes, assemble_bytes,
    List.take_left' (by simp)]
  exact onesSum_assembled_header _ _ _

end

/-- Settles O32: the fields on the wire are those of `PKT`, the lengths follow from
`afterEncoding_ihl_mul_four`, and the checksum is `afterEncoding_onesSum`. -/
theorem encodedPacketInvariants : Obligations.EncodedPacketInvariants := by
  intro s t hexec hok
  obtain ⟨h, rfl⟩ := eq_afterEncoding hexec hok
  have hihl := afterEncoding_ihl_mul_four h
  have htlen := afterEncoding_tlen h
  have hones := afterEncoding_onesSum h
  have hmod := region_length_mod s
  have hwlen : (afterEncoding s).wlen = 20 + (region s).length + (afterEncoding s).plen := rfl
  rw [afterEncoding_wireIhl]
  refine ⟨by omega, by omega, rfl, htlen.symm, afterEncoding_tlen_on_wire s, by omega, by omega,
    by omega, ?_, cksum_eq_zero_of_onesSum hones⟩
  rw [← wordSum_read, ← onesSum_eq_foldedSum, hones]

/-- Settles O33: the header ends inside the datagram, and sums to all ones. -/
theorem cksumOfEncodedHeaderIsZero : Obligations.CksumOfEncodedHeaderIsZero := by
  intro s t hexec hok
  obtain ⟨h, rfl⟩ := eq_afterEncoding hexec hok
  have hfit : (afterEncoding s).pkt.ihl.toNat * 4 ≤ (afterEncoding s).wlen := by
    rw [afterEncoding_ihl_mul_four h]
    exact Nat.le_add_right _ _
  have ha : (BitVec.ofNat 16 ((afterEncoding s).pkt.ihl.toNat * 4)).toNat =
      (afterEncoding s).pkt.ihl.toNat * 4 := half_ofNat_toNat (by omega)
  rw [exec_cksum_of_le (ha.trans_le hfit), ha, cksum_eq_zero_of_onesSum (afterEncoding_onesSum h)]

end Sys2Proof.Proofs
end

section
/-! `HDRDEC` on a wire state: the errors in the order of their tests, and where each decoded part
comes from (`42_header_engine.md` R145 to R148, R177). -/

namespace Sys2Proof.Proofs

open Sys2Proof.Machine Sys2Proof.Claims

theorem wireBytes_length (s : State) : (wireBytes s).length = s.wlen := read_length _ _ _

/-- `hdrDecode` of the wire in terms of the state: its tests in order, then the option loop
(R145 to R147, R177). -/
theorem hdrDecode_wireBytes (s : State) :
    hdrDecode (wireBytes s) =
      if s.wlen < 20 then .error .tooShort
      else if wireIhl s * 4 < 20 then .error .malformedOptionsRegion
      else if s.wlen < wireIhl s * 4 then .error .tooShort
      else (parseOptions (wireBytes s) (wireIhl s * 4)).map fun os =>
        { pkt := decodeFields (wireBytes s)
          opts := os
          pay := s.wire.read (wireIhl s * 4) (s.wlen - wireIhl s * 4) } := by
  by_cases hshort : s.wlen < 20
  · rw [if_pos hshort]
    exact if_pos ((wireBytes_length s).trans_lt hshort)
  · have hihl : (decodeFields (wireBytes s)).ihl.toNat = wireIhl s := by
      rw [decodeFields_ihl_toNat, if_pos (by omega)]
    have hpay : (wireBytes s).drop (wireIhl s * 4) =
        s.wire.read (wireIhl s * 4) (s.wlen - wireIhl s * 4) := by
      rw [wireBytes, read_drop, Nat.zero_add]
    simp only [hdrDecode, wireBytes_length, hihl, hpay]
    cases parseOptions (wireBytes s) (wireIhl s * 4) <;> rfl

section
variable {s : State} (hw : 20 ≤ s.wlen) (hihl : 5 ≤ wireIhl s) (hfit : wireIhl s * 4 ≤ s.wlen)
include hw hihl hfit

/-- A wire that holds its whole header: the option loop decides (R146). -/
theorem hdrDecode_whole_header :
    hdrDecode (wireBytes s) =
      (parseOptions (wireBytes s) (wireIhl s * 4)).map fun os =>
        { pkt := decodeFields (wireBytes s)
          opts := os
          pay := s.wire.read (wireIhl s * 4) (s.wlen - wireIhl s * 4) } := by
  rw [hdrDecode_wireBytes, if_neg (by omega), if_neg (by omega), if_neg (by omega)]

theorem exec_hdrdec_of_parse_error {k : Completion}
    (hk : parseOptions (wireBytes s) (wireIhl s * 4) = .error k) :
    exec .hdrdec s = .next { s with status := k.code } :=
  exec_hdrdec_of_error (by rw [hdrDecode_whole_header hw hihl hfit, hk]; rfl)

theorem exec_hdrdec_of_parse_ok {os : List OptVal}
    (hos : parseOptions (wireBytes s) (wireIhl s * 4) = .ok os) :
    exec .hdrdec s = .next
      { s with
        pkt := decodeFields (wireBytes s)
        opts := storeOpts 0 os s.opts
        nopt := os.length
        pay := s.pay.write 0 (s.wire.read (wireIhl s * 4) (s.wlen - wireIhl s * 4))
        plen := s.wlen - wireIhl s * 4
        status := 0 } := by
  have hd := hdrDecode_whole_header hw hihl hfit
  rw [hos] at hd
  rw [exec_hdrdec_of_ok hd, read_length]

end

/-- Settles O43: the first three clauses are the tests of `hdrDecode_wireBytes`, each with the
earlier ones passed; the option errors are the loop's. -/
theorem hdrdecErrorsInOrder : Obligations.HdrdecErrorsInOrder := by
  intro s
  have htest := hdrDecode_wireBytes s
  refine ⟨fun hshort => ?_, fun hw hihl => ?_, fun hw hihl hcut => ?_, fun hw hihl hfit hk => ?_,
    fun hw hihl hfit hk => ?_⟩
  · rw [if_pos hshort] at htest
    exact exec_hdrdec_of_error htest
  · rw [if_neg (by omega), if_pos (by omega)] at htest
    exact exec_hdrdec_of_error htest
  · rw [if_neg (by omega), if_neg (by omega), if_pos hcut] at htest
    exact exec_hdrdec_of_error htest
  · exact exec_hdrdec_of_parse_error hw hihl hfit hk
  · exact exec_hdrdec_of_parse_error hw hihl hfit hk

/-! ### Where the fields come from -/

section
variable {s : State} {k : Nat}

theorem be16At_wireBytes_toNat (h : k + 1 < s.wlen) :
    (be16At (wireBytes s) k).toNat =
      (s.wire.byte k).toNat * 256 + (s.wire.byte (k + 1)).toNat := by
  rw [be16At_toNat, byteAt_wireBytes (Nat.lt_of_succ_lt h), byteAt_wireBytes h]

theorem addressAt_wireBytes (h : k + 3 < s.wlen) (j : Fin 4) :
    (addressAt (wireBytes s) k)[j] = s.wire.byte (k + j) := by
  rw [← byteAt_wireBytes (by omega)]
  fin_cases j <;> rfl

end

/-- A header without options: the loop has no turn (R146). -/
theorem parseOptions_no_region (w : List Byte) : parseOptions w (5 * 4) = .ok [] :=
  parseLoop_end w _ _ _ le_rfl

/-- At most 40 options come out of a header of at most 15 words (R61, R146). -/
theorem parsed_length_le {s : State} {os : List OptVal}
    (h : parseOptions (wireBytes s) (wireIhl s * 4) = .ok os) : os.length ≤ 40 := by
  have hcount := parsedOptionsFitTheList _ _ _ h
  unfold wireIhl at hcount
  omega

/-- Settles O42: the next state is `exec_hdrdec_of_parse_ok`'s, and each part of it is read off the
wire at its offset, the list by `storeOpts_getElem?`, the payload by `byte_write`. -/
theorem hdrdecDecodesDatagram : Obligations.HdrdecDecodesDatagram := by
  refine ⟨rfl, fun s os hw hihl hfit hos => ?_⟩
  have hparse : parseOptions (wireBytes s) (wireIhl s * 4) = .ok os := by
    rcases hos with ⟨h5, rfl⟩ | hos
    · rw [h5, parseOptions_no_region]
    · exact hos
  have hcount := parsed_length_le hparse
  have hflags : (be16At (wireBytes s) 6).toNat =
      (s.wire.byte 6).toNat * 256 + (s.wire.byte 7).toNat := be16At_wireBytes_toNat (by omega)
  have hlow := (s.wire.byte 7).isLt
  refine ⟨_, _, _, exec_hdrdec_of_parse_ok hw hihl hfit hparse, ?_, ?_, byteAt_wireBytes (by omega),
    be16At_wireBytes_toNat (by omega), be16At_wireBytes_toNat (by omega), ?_, ?_,
    byteAt_wireBytes (by omega), byteAt_wireBytes (by omega), be16At_wireBytes_toNat (by omega),
    addressAt_wireBytes (by omega), addressAt_wireBytes (by omega), fun k hk => ?_, fun k hk => ?_,
    fun j hj => ?_, fun j hj => ?_⟩
  · exact (ver_toNat _).trans (by rw [byteAt_wireBytes (by omega)])
  · rw [decodeFields_ihl_toNat, if_pos (by omega)]
  · exact (flg_toNat _).trans (by omega)
  · exact (foff_toNat _).trans (by omega)
  · rw [storeOpts_getElem? 0 os _ _ (by omega), if_pos (by omega), Option.map_map]
    simp [Function.comp_def]
  · rw [storeOpts_getElem? 0 os _ _ (by omega), if_neg (by omega)]
  · rw [byte_write_zero_inside _ (by rwa [read_length]), read_getD, if_pos hj]
  · exact byte_write_outside _ _ _ _ (.inr (by rwa [read_length, Nat.zero_add]))

end Sys2Proof.Proofs
end

section
/-! The checksum engine: the closed law as a number, `CKSUM` on a region of `WIRE`, and what of an
encoded header the payload's bytes can reach (`43_checksum.md` R160 to R166). -/

namespace Sys2Proof.Proofs

open Sys2Proof.Machine Sys2Proof.Claims

/-- Settles O37: the word sum by index and the fold by the closed law are `cksum_eq_checksumOf`, and
the complement of the folded sum fits 16 bits. -/
theorem checksumFollowsClosedLaw : Obligations.ChecksumFollowsClosedLaw := by
  intro bs
  rw [cksum_eq_checksumOf]
  exact half_ofNat_toNat (Nat.sub_le _ _)

/-- The checksum of the first bytes of a buffer, by address (R164). -/
theorem cksum_read (m : Memory) (n : Nat) :
    cksum (m.read 0 n) = BitVec.ofNat 16 (checksumOf m.byte n) := by
  rw [cksum, onesSum_eq_foldedSum, wordSum_read, checksumOf]

theorem exec_cksum_of_gt {s : State} (h : s.wlen < s.a.toNat) :
    exec .cksum s = .next { s with status := 4 } :=
  if_pos h

/-- Settles O39: `CKSUM` has one test, on `A` against `wlen`, and sums the bytes by address. -/
theorem cksumSumsRegionOrRefuses : Obligations.CksumSumsRegionOrRefuses := by
  refine ⟨rfl, fun s => ⟨fun hfit => ?_, exec_cksum_of_gt⟩⟩
  rw [exec_cksum_of_le hfit, cksum_read]

/-- Of the payload only its length reaches the recomputed fields: the total length counts it, and the
checksum is taken over header and options (R140, R166). -/
theorem assemble_of_payload_length {pay pay' : List Byte} (h : pay'.length = pay.length) (p : Pkt)
    (ob : List Byte) :
    assemble p ob pay' = { assemble p ob pay with bytes := (assemble p ob pay').bytes } := by
  simp only [assemble, h]

theorem region_of_pay (s : State) (pay' : Memory) : region { s with pay := pay' } = region s := rfl

theorem afterEncoding_pkt_of_pay (s : State) (pay' : Memory) :
    (afterEncoding { s with pay := pay' }).pkt = (afterEncoding s).pkt := by
  have hlen : (payload { s with pay := pay' }).length = (payload s).length := by
    rw [payload_length, payload_length]
  simp only [afterEncoding, region_of_pay]
  rw [assemble_of_payload_length hlen]

/-- Settles O36: whether a Packet is encodable does not depend on the payload's bytes; a refusal
leaves `PKT` alone, and a success leaves the same by `afterEncoding_pkt_of_pay`. -/
theorem checksumIndependentOfPayloadBytes : Obligations.ChecksumIndependentOfPayloadBytes := by
  intro s t t' pay' h h'
  by_cases henc : EncodablePacket s
  · have henc' : EncodablePacket { s with pay := pay' } := henc
    obtain rfl := Host.Outcome.next.inj ((exec_hdrenc_of_encodable henc).symm.trans h)
    obtain rfl := Host.Outcome.next.inj ((exec_hdrenc_of_encodable henc').symm.trans h')
    exact ⟨rfl, afterEncoding_pkt_of_pay s pay'⟩
  · have henc' : ¬ EncodablePacket { s with pay := pay' } := henc
    obtain rfl := Host.Outcome.next.inj ((exec_hdrenc_of_not_encodable henc).symm.trans h)
    obtain rfl := Host.Outcome.next.inj ((exec_hdrenc_of_not_encodable henc').symm.trans h')
    exact ⟨rfl, rfl⟩

end Sys2Proof.Proofs
end

section
/-! A failed operation has written `STATUS` and nothing else (`60_exceptions.md` R180). -/

namespace Sys2Proof.Proofs

open Sys2Proof.Machine

/-- Of the effects of an operation only the failure ends with a code other than `OK`. -/
theorem effect_status_only {i : Instr} {s t : State} (h : Effect i s t) (hfail : t.status ≠ 0) :
    t = { s with status := t.status } := by
  cases h with
  | failed k => rfl
  | scalar | encodedOption | decodedOption | newPacket | appendedOption | encodedPacket
  | decodedPacket => exact absurd rfl hfail

theorem exec_status_only {i : Instr} {s t : State} (h : exec i s = .next t)
    (hfail : t.status ≠ 0) : t = { s with status := t.status } :=
  effect_status_only (exec_effect h) hfail

/-- Settles O47: a code of `OP` that decodes runs one instruction, which answers with one of its
effects; any other code sets `IllegalOp` alone. -/
theorem failedOperationChangesStatusOnly : Obligations.FailedOperationChangesStatusOnly := by
  refine ⟨fun s t h hfail => ?_, fun i s t h hfail => exec_status_only h hfail⟩
  rcases startOp_cases s with ⟨i, -, hexec⟩ | ⟨e, -, hill⟩
  · exact exec_status_only (hexec ▸ h) hfail
  · obtain rfl := Host.Outcome.next.inj (hill.symm.trans h)
    rfl

end Sys2Proof.Proofs
end

section
/-! Reset: the event gives the reset state from every state, and that state is legal
(`10_state.md` R32, R190, R191). -/

namespace Sys2Proof.Proofs

open Sys2Proof.Machine

/-- Settles O13: the step runs the pending event (`step_cons`), and a reset keeps of the state it meets
only the host's later events (log 8). -/
theorem resetEventGivesResetState : Obligations.ResetEventGivesResetState := by
  intro s rest hs
  calc step s
    _ = runEvent .reset { s with host := rest } := step_cons hs
    _ = .next { State.reset with host := rest } := rfl

/-- Settles O50: it is the base of the invariant that `stepKeepsLegalStates` carries on. -/
theorem resetStateIsLegal : Obligations.ResetStateIsLegal := reset_legal

end Sys2Proof.Proofs
end
